-- ==== Sys2Proof/Word.lean ====
section
/-! DEFINITION. The word and byte types of the machine (00_scope.md R6, R7; 10_state.md R20; 20_memory.md R50, R70). -/

namespace Sys2Proof

/-- A Word: "a 16-bit unsigned integer", bit 15 the most significant (R6). Every register, memory cell, address and
intermediate value is one. `+` on it is addition modulo 2^16 and `&&&`, `~~~` are bitwise (R7). -/
abbrev Word := BitVec 16

/-- A console byte: 8 bits (R70). -/
abbrev Byte := BitVec 8

end Sys2Proof
end

