-- ==== Sys2Proof/Config.lean ====
section
/-! DEFINITION. The parameters of the hardware that the spec leaves to the platform (00_scope.md R5). The fixed ones
(WORD_BITS, ADDR_BITS, MEM_WORDS, NREGS, OPCODE_BITS) are in the types and in `memWords`.

A value of `Config` stands in the state (`State.cfg`), so a statement about every state holds for every choice of the
parameters: 92_eei_decisions.md D5 asks a claim to "quantify over the parameters or state the defaults as a premise".
No step changes it but for the load origin that a reset supplies (log entry 3). -/

namespace Sys2Proof

/-- MEM_WORDS: the number of memory cells (R5, R32, R50). -/
def memWords : Nat := 65536

/-- The open parameters of R5, one field each, in the table's order. -/
structure Config where
  /-- LOAD_ORIGIN: the PC after reset. -/
  loadOrigin  : Word
  /-- KBSR_ADDR: the keyboard-status address. -/
  kbsrAddr    : Word
  /-- KBDR_ADDR: the keyboard-data address. -/
  kbdrAddr    : Word
  /-- KBSR_READY: what a status read returns when a key is available. -/
  kbsrReady   : Word
  /-- KBSR_IDLE: what a status read returns when no key is available. -/
  kbsrIdle    : Word
  /-- VEC_GETC. -/
  vecGetc     : BitVec 8
  /-- VEC_OUT. -/
  vecOut      : BitVec 8
  /-- VEC_PUTS. -/
  vecPuts     : BitVec 8
  /-- VEC_READLINE. -/
  vecReadLine : BitVec 8
  /-- VEC_HALT. -/
  vecHalt     : BitVec 8
  /-- LINE_END: the byte that ends a line in the read-line service. -/
  lineEnd     : Byte
  deriving DecidableEq, Repr

/-- The defaults of R5's table. -/
def Config.default : Config where
  loadOrigin  := 0x3000
  kbsrAddr    := 0xFE00
  kbdrAddr    := 0xFE02
  kbsrReady   := 0x8000
  kbsrIdle    := 0x0000
  vecGetc     := 0x20
  vecOut      := 0x21
  vecPuts     := 0x22
  vecReadLine := 0x23
  vecHalt     := 0x25
  lineEnd     := 0x0A

end Sys2Proof
end

