-- ==== Sys2Proof/Syntax.lean ====
section
/-! DEFINITION. The decoded instructions: the "closed tagged variant" of 30_encoding.md R88, one constructor per row of
spec/opcode_table.json, and the sixteen opcode values of R82 by name. -/

namespace Sys2Proof

/-- A register field: 3 bits that select R0 to R7 directly (R20). -/
abbrev Reg := BitVec 3

/-- The sixteen values of `IR[15:12]` (R82), in the table's order. -/
inductive Opcode where
  | br | add | ld | st | jsr | and | ldr | str | rti | not | ldi | sti | jmp | res | lea | trap
  deriving DecidableEq, Repr

/-- The nineteen decoded forms of R88. Immediates and offsets are kept as the fields of R83, unextended. -/
inductive Instr where
  /-- `ADD DR, SR1, SR2` (R140). -/
  | addReg (dr sr1 sr2 : Reg)
  /-- `ADD DR, SR1, #imm5` (R141). -/
  | addImm (dr sr1 : Reg) (imm5 : BitVec 5)
  /-- `AND DR, SR1, SR2` (R142). -/
  | andReg (dr sr1 sr2 : Reg)
  /-- `AND DR, SR1, #imm5` (R143). -/
  | andImm (dr sr1 : Reg) (imm5 : BitVec 5)
  /-- `NOT DR, SR1` (R144). -/
  | not (dr sr1 : Reg)
  /-- `BRnzp #offset9` (R150). -/
  | br (n z p : Bool) (offset9 : BitVec 9)
  /-- `JMP BaseR`; `RET` is `JMP R7` (R151). -/
  | jmp (baseR : Reg)
  /-- `JSR #offset11` (R152). -/
  | jsr (offset11 : BitVec 11)
  /-- `JSRR BaseR` (R153). -/
  | jsrr (baseR : Reg)
  /-- `LD DR, #offset9` (R160). -/
  | ld (dr : Reg) (offset9 : BitVec 9)
  /-- `LDI DR, #offset9` (R161). -/
  | ldi (dr : Reg) (offset9 : BitVec 9)
  /-- `LDR DR, BaseR, #offset6` (R162). -/
  | ldr (dr baseR : Reg) (offset6 : BitVec 6)
  /-- `LEA DR, #offset9` (R163). -/
  | lea (dr : Reg) (offset9 : BitVec 9)
  /-- `ST SR, #offset9` (R164). -/
  | st (sr : Reg) (offset9 : BitVec 9)
  /-- `STI SR, #offset9` (R165). -/
  | sti (sr : Reg) (offset9 : BitVec 9)
  /-- `STR SR, BaseR, #offset6` (R166). -/
  | str (sr baseR : Reg) (offset6 : BitVec 6)
  /-- `TRAP trapvect8` (R180). -/
  | trap (trapvect8 : BitVec 8)
  /-- Opcode 8, not implemented: a fatal decode error (R188). -/
  | rti
  /-- Opcode 13, reserved: a fatal decode error (R189). -/
  | res
  deriving DecidableEq, Repr

/-- The opcode value each form carries (R82, R83). -/
def Instr.opcode : Instr → Opcode
  | .addReg _ _ _ => .add
  | .addImm _ _ _ => .add
  | .andReg _ _ _ => .and
  | .andImm _ _ _ => .and
  | .not _ _ => .not
  | .br _ _ _ _ => .br
  | .jmp _ => .jmp
  | .jsr _ => .jsr
  | .jsrr _ => .jsr
  | .ld _ _ => .ld
  | .ldi _ _ => .ldi
  | .ldr _ _ _ => .ldr
  | .lea _ _ => .lea
  | .st _ _ => .st
  | .sti _ _ => .sti
  | .str _ _ _ => .str
  | .trap _ => .trap
  | .rti => .rti
  | .res => .res

end Sys2Proof
end

