-- ==== Sys2Proof/WellFormed.lean ====
section
/-! DEFINITION. What makes a term well formed. The operand fields of `Instr` have exactly the widths of 30_encoding.md
R83, so no value of an operand is out of range and every term has an encoding; what is left to check of an instruction
is whether it is one of the legal ones (R86). Of the parameters, R5's constraint is checked. -/

namespace Sys2Proof

/-- R86: every decoded form but RTI and RES is a legal instruction. (An illegal one still decodes, encodes and has its
meaning: the decode error of 60_exceptions.md R201.) -/
def Instr.legal (i : Instr) : Bool :=
  match i.opcode with
  | .rti | .res => false
  | .br | .add | .ld | .st | .jsr | .and | .ldr | .str | .not | .ldi | .sti | .jmp | .lea | .trap => true

/-- The five trap vectors that have a native service, in the order of 44_trap_and_illegal.md R181. -/
def Config.vectors (c : Config) : List (BitVec 8) :=
  [c.vecGetc, c.vecOut, c.vecPuts, c.vecReadLine, c.vecHalt]

/-- R5's constraint, first part: KBSR_ADDR and KBDR_ADDR are distinct. -/
def Config.devicesDistinct (c : Config) : Bool := c.kbsrAddr != c.kbdrAddr

/-- R5's constraint, second part: the five vectors are distinct. -/
def Config.vectorsDistinct (c : Config) : Bool := decide c.vectors.Nodup

/-- R5's constraint on the parameters. -/
def Config.wf (c : Config) : Bool := c.devicesDistinct && c.vectorsDistinct

end Sys2Proof
end

