-- ==== Sys2Proof/Decode.lean ====
section
/-! DEFINITION. The decoder and the encoder (30_encoding.md R80 to R88; 40_cycle_and_units.md R113, R119). The opcode
map and the field positions are the spec's (decisions D1, D2, D3 of 92_eei_decisions.md; log entry 4). Ignored bits are
not examined (R85) and are written canonically by the encoder (R83). -/

namespace Sys2Proof

/-- R82's first column, read. -/
def Opcode.ofBits (b : BitVec 4) : Opcode :=
  match b.getLsbD 3, b.getLsbD 2, b.getLsbD 1, b.getLsbD 0 with
  | false, false, false, false => .br
  | false, false, false, true  => .add
  | false, false, true,  false => .ld
  | false, false, true,  true  => .st
  | false, true,  false, false => .jsr
  | false, true,  false, true  => .and
  | false, true,  true,  false => .ldr
  | false, true,  true,  true  => .str
  | true,  false, false, false => .rti
  | true,  false, false, true  => .not
  | true,  false, true,  false => .ldi
  | true,  false, true,  true  => .sti
  | true,  true,  false, false => .jmp
  | true,  true,  false, true  => .res
  | true,  true,  true,  false => .lea
  | true,  true,  true,  true  => .trap

/-- R82's second column, written. -/
def Opcode.bits : Opcode → BitVec 4
  | .br => 0 | .add => 1 | .ld => 2 | .st => 3 | .jsr => 4 | .and => 5 | .ldr => 6 | .str => 7
  | .rti => 8 | .not => 9 | .ldi => 10 | .sti => 11 | .jmp => 12 | .res => 13 | .lea => 14 | .trap => 15

/-! The decoder's field outputs (R83 "Field by field", R119). -/

/-- `IR[15:12]`. -/
def Field.opcode (w : Word) : BitVec 4 := w.extractLsb' 12 4
/-- `IR[11:9]`: DR, and SR of the stores. -/
def Field.dr (w : Word) : Reg := w.extractLsb' 9 3
/-- `IR[8:6]`: SR1, and BaseR of LDR, STR, JMP, JSRR. -/
def Field.sr1 (w : Word) : Reg := w.extractLsb' 6 3
/-- `IR[2:0]`: SR2. -/
def Field.sr2 (w : Word) : Reg := w.extractLsb' 0 3
/-- `IR[5]`: the mode bit of ADD and AND, 1 for immediate. -/
def Field.immMode (w : Word) : Bool := w.getLsbD 5
/-- `IR[4:0]`. -/
def Field.imm5 (w : Word) : BitVec 5 := w.extractLsb' 0 5
/-- `IR[5:0]`. -/
def Field.offset6 (w : Word) : BitVec 6 := w.extractLsb' 0 6
/-- `IR[8:0]`. -/
def Field.offset9 (w : Word) : BitVec 9 := w.extractLsb' 0 9
/-- `IR[10:0]`. -/
def Field.offset11 (w : Word) : BitVec 11 := w.extractLsb' 0 11
/-- `IR[11]` of opcode 0000: the n bit. -/
def Field.n (w : Word) : Bool := w.getLsbD 11
/-- `IR[10]` of opcode 0000: the z bit. -/
def Field.z (w : Word) : Bool := w.getLsbD 10
/-- `IR[9]` of opcode 0000: the p bit. -/
def Field.p (w : Word) : Bool := w.getLsbD 9
/-- `IR[11]` of opcode 0100: the long-form bit, 1 for JSR. -/
def Field.jsrLong (w : Word) : Bool := w.getLsbD 11
/-- `IR[7:0]`. -/
def Field.trapvect8 (w : Word) : BitVec 8 := w.extractLsb' 0 8

/-- R113: the pure total function from a Word to the nineteen cases. It refuses nothing: opcodes 8 and 13 decode to
`rti` and `res`, whose meaning is the decode error (R86). -/
def decode (w : Word) : Instr :=
  match Opcode.ofBits (Field.opcode w) with
  | .br => .br (Field.n w) (Field.z w) (Field.p w) (Field.offset9 w)
  | .add =>
    match Field.immMode w with
    | false => .addReg (Field.dr w) (Field.sr1 w) (Field.sr2 w)
    | true => .addImm (Field.dr w) (Field.sr1 w) (Field.imm5 w)
  | .ld => .ld (Field.dr w) (Field.offset9 w)
  | .st => .st (Field.dr w) (Field.offset9 w)
  | .jsr =>
    match Field.jsrLong w with
    | true => .jsr (Field.offset11 w)
    | false => .jsrr (Field.sr1 w)
  | .and =>
    match Field.immMode w with
    | false => .andReg (Field.dr w) (Field.sr1 w) (Field.sr2 w)
    | true => .andImm (Field.dr w) (Field.sr1 w) (Field.imm5 w)
  | .ldr => .ldr (Field.dr w) (Field.sr1 w) (Field.offset6 w)
  | .str => .str (Field.dr w) (Field.sr1 w) (Field.offset6 w)
  | .rti => .rti
  | .not => .not (Field.dr w) (Field.sr1 w)
  | .ldi => .ldi (Field.dr w) (Field.offset9 w)
  | .sti => .sti (Field.dr w) (Field.offset9 w)
  | .jmp => .jmp (Field.sr1 w)
  | .res => .res
  | .lea => .lea (Field.dr w) (Field.offset9 w)
  | .trap => .trap (Field.trapvect8 w)

/-- Why a list of Words holds no instruction. -/
inductive DecodeRefusal where
  /-- There is no Word left to decode. -/
  | noWord
  deriving DecidableEq, Repr

/-- The first instruction of a list of Words, with the Words after it. Every instruction is one Word (R80) and every
Word is one (R86), so only the empty list is refused, by name. -/
def decodeWords : List Word → Except DecodeRefusal (Instr × List Word)
  | [] => .error .noWord
  | w :: rest => .ok (decode w, rest)

/-! The encoder, from R83's format rows. -/

/-- A field's bits put with its low bit at bit `lo` of a Word. -/
def place {n : Nat} (v : BitVec n) (lo : Nat) : Word := v.setWidth 16 <<< lo

/-- The one bit of a flag. -/
def bit (b : Bool) : BitVec 1 := BitVec.ofBool b

/-- Format OP-REG: bits 5 and 4:3 clear. -/
def encOpReg (o : Opcode) (dr sr1 sr2 : Reg) : Word :=
  place o.bits 12 ||| place dr 9 ||| place sr1 6 ||| place sr2 0

/-- Format OP-IMM: bit 5 set. -/
def encOpImm (o : Opcode) (dr sr1 : Reg) (imm5 : BitVec 5) : Word :=
  place o.bits 12 ||| place dr 9 ||| place sr1 6 ||| place (bit true) 5 ||| place imm5 0

/-- Format BASE. -/
def encBase (o : Opcode) (r baseR : Reg) (offset6 : BitVec 6) : Word :=
  place o.bits 12 ||| place r 9 ||| place baseR 6 ||| place offset6 0

/-- Format PCREL. -/
def encPcRel (o : Opcode) (r : Reg) (offset9 : BitVec 9) : Word :=
  place o.bits 12 ||| place r 9 ||| place offset9 0

/-- The canonical Word of an instruction (R83's rows, its "canonical x bits" in the bits no field uses). -/
def encode : Instr → Word
  | .addReg dr sr1 sr2 => encOpReg .add dr sr1 sr2
  | .addImm dr sr1 imm5 => encOpImm .add dr sr1 imm5
  | .andReg dr sr1 sr2 => encOpReg .and dr sr1 sr2
  | .andImm dr sr1 imm5 => encOpImm .and dr sr1 imm5
  | .not dr sr1 => place Opcode.not.bits 12 ||| place dr 9 ||| place sr1 6 ||| 0x003F
  | .br n z p offset9 =>
    place Opcode.br.bits 12 ||| place (bit n) 11 ||| place (bit z) 10 ||| place (bit p) 9 ||| place offset9 0
  | .jmp baseR => place Opcode.jmp.bits 12 ||| place baseR 6
  | .jsr offset11 => place Opcode.jsr.bits 12 ||| place (bit true) 11 ||| place offset11 0
  | .jsrr baseR => place Opcode.jsr.bits 12 ||| place baseR 6
  | .ld dr offset9 => encPcRel .ld dr offset9
  | .ldi dr offset9 => encPcRel .ldi dr offset9
  | .ldr dr baseR offset6 => encBase .ldr dr baseR offset6
  | .lea dr offset9 => encPcRel .lea dr offset9
  | .st sr offset9 => encPcRel .st sr offset9
  | .sti sr offset9 => encPcRel .sti sr offset9
  | .str sr baseR offset6 => encBase .str sr baseR offset6
  | .trap trapvect8 => place Opcode.trap.bits 12 ||| place trapvect8 0
  | .rti => place Opcode.rti.bits 12
  | .res => place Opcode.res.bits 12

/-- The match and mask of the form's row in spec/opcode_table.json (R140 to R189, "Encoding"). -/
structure Row where
  mask  : Word
  value : Word
  deriving DecidableEq, Repr

/-- The row of spec/opcode_table.json that a decoded form stands for. -/
def Instr.row : Instr → Row
  | .addReg _ _ _ => ⟨0xF020, 0x1000⟩
  | .addImm _ _ _ => ⟨0xF020, 0x1020⟩
  | .andReg _ _ _ => ⟨0xF020, 0x5000⟩
  | .andImm _ _ _ => ⟨0xF020, 0x5020⟩
  | .not _ _ => ⟨0xF000, 0x9000⟩
  | .br _ _ _ _ => ⟨0xF000, 0x0000⟩
  | .jmp _ => ⟨0xF000, 0xC000⟩
  | .jsr _ => ⟨0xF800, 0x4800⟩
  | .jsrr _ => ⟨0xF800, 0x4000⟩
  | .ld _ _ => ⟨0xF000, 0x2000⟩
  | .ldi _ _ => ⟨0xF000, 0xA000⟩
  | .ldr _ _ _ => ⟨0xF000, 0x6000⟩
  | .lea _ _ => ⟨0xF000, 0xE000⟩
  | .st _ _ => ⟨0xF000, 0x3000⟩
  | .sti _ _ => ⟨0xF000, 0xB000⟩
  | .str _ _ _ => ⟨0xF000, 0x7000⟩
  | .trap _ => ⟨0xF000, 0xF000⟩
  | .rti => ⟨0xF000, 0x8000⟩
  | .res => ⟨0xF000, 0xD000⟩

/-- A Word matches a row of the table. -/
def Row.holds (r : Row) (w : Word) : Bool := w &&& r.mask == r.value

/-- The bits of a Word that the decoder examines for a form: all but those marked `x` in R83. -/
def Instr.examined : Instr → Word
  | .addReg _ _ _ => 0xFFE7
  | .andReg _ _ _ => 0xFFE7
  | .not _ _ => 0xFFC0
  | .jmp _ => 0xF1C0
  | .jsrr _ => 0xF9C0
  | .trap _ => 0xF0FF
  | .rti => 0xF000
  | .res => 0xF000
  | .addImm _ _ _ => 0xFFFF
  | .andImm _ _ _ => 0xFFFF
  | .br _ _ _ _ => 0xFFFF
  | .jsr _ => 0xFFFF
  | .ld _ _ => 0xFFFF
  | .ldi _ _ => 0xFFFF
  | .ldr _ _ _ => 0xFFFF
  | .lea _ _ => 0xFFFF
  | .st _ _ => 0xFFFF
  | .sti _ _ => 0xFFFF
  | .str _ _ _ => 0xFFFF

/-- The Words an instruction of `nbits` bits with the value `w` occupies: one Word (R80), its bits above `nbits` zero;
none where `nbits` is not 1 to 16 or `w` has a bit outside them. -/
def tableWords (nbits w : Nat) : List Word :=
  if 0 < nbits ∧ nbits ≤ 16 ∧ w < 2 ^ nbits then [BitVec.ofNat 16 w] else []

/-- The instruction the decoder reads from an instruction whose bits are `w`, numbered as spec/opcode_table.json
numbers them. -/
def decodeTableWord (nbits w : Nat) : Option Instr :=
  match decodeWords (tableWords nbits w) with
  | .ok (i, _) => some i
  | .error _ => none

end Sys2Proof
end

