-- ==== Sys2Proof/Machine/State.lean ====
section
/-! DEFINITION. The machine's state as plain data (10_state.md R20 to R35), its values after reset, and the ways a step
can stop. -/

namespace Sys2Proof.Machine

/-- The condition flag: "exactly one of three mutually exclusive values" (R26). The other five codes of a 3-bit
register are never held (93_implementation_defined.md U14), so the type does not have them. -/
inductive Cond where
  | negative | zero | positive
  deriving DecidableEq, Repr

/-- `run_state` (R29). -/
inductive RunState where
  | running | halted
  deriving DecidableEq, Repr

/-- `halt_cause` (R30): `none` while RUNNING, then why the CORE halted. -/
inductive HaltCause where
  | none | normal | illegalInstruction | externalStop
  deriving DecidableEq, Repr

/-- A move of the environment (70_reset_and_hazards.md R239) that changes something the CORE can see. -/
inductive EnvMove where
  /-- Append a byte to the console input between two instructions, or while one holds. -/
  | key (b : Byte)
  /-- Assert `stop_req`. -/
  | stop
  /-- Reset, zero the memory, and load an image: the load origin and the (address, Word) pairs the loader writes (R230).
  That it may come at the top of any step, of a RUNNING machine too, is the model's choice (DESIGN CHOICE; log entry
  22). -/
  | reset (origin : Word) (image : List (Word × Word))
  deriving DecidableEq, Repr

/-- The console's input side (R33). -/
structure Keyboard where
  /-- `kbd`: the bytes not yet consumed, the next byte first. -/
  queue    : List Byte
  /-- THE MODEL'S OWN: the bytes still to arrive while instructions run, in batches. Each poll of `key_available()` lets
  the next batch arrive first, and a `read_byte()` that finds the queue empty lets batches arrive until it has a byte
  ("at any time between or during instructions", R33; log entry 7). -/
  arrivals : List (List Byte)
  deriving DecidableEq, Repr

/-- One listed cell of memory: its address and the Word it holds. The addressable unit is the Word (R50). -/
abbrev MemCell := Nat × Word

/-- The 65,536 Words of R32: the cells that differ from `Memory.unlisted`, by rising address (log entry 1). -/
abbrev Memory := List MemCell

/-- What an address that is not listed reads as: memory is zero-initialised (R35, R232). -/
def Memory.unlisted : Word := 0x0000

/-- The canonical form from address `lo` on: addresses rise strictly and lie in the space, no listed cell equals an
unlisted one. -/
def Memory.wfFrom : Nat → Memory → Bool
  | _, [] => true
  | lo, (a, v) :: rest => decide (lo ≤ a) && decide (a < memWords) && v != Memory.unlisted && Memory.wfFrom (a + 1) rest

/-- The canonical form of a memory. -/
def Memory.wf (m : Memory) : Bool := Memory.wfFrom 0 m

/-- Everything the spec gives the machine: the CORE's own state, the platform's memory and console (R32, R33), the stop
input (40_cycle_and_units.md R111) and the parameters (00_scope.md R5). -/
structure State where
  /-- R0 to R7 (R20). -/
  regs      : Vector Word 8
  /-- The program counter (R24). -/
  pc        : Word
  /-- COND (R26). -/
  cond      : Cond
  /-- IR, the Word the fetch step wrote last (R28). -/
  ir        : Word
  /-- run_state (R29). -/
  runState  : RunState
  /-- halt_cause (R30). -/
  haltCause : HaltCause
  /-- The memory array (R32). -/
  mem       : Memory
  /-- Console input: what is there and what is still to arrive (R33). -/
  kbd       : Keyboard
  /-- Console output, the first byte written first (R33). -/
  out       : List Byte
  /-- The stop request input (R111). -/
  stopReq   : Bool
  /-- THE MODEL'S OWN: the environment's moves to come between instructions; entry k lands at the top of the k-th step
  from now (R239; log entry 7). -/
  env       : List (List EnvMove)
  /-- The parameters (R5; log entry 3). -/
  cfg       : Config
  deriving DecidableEq, Repr

/-- The state after reset under given parameters, before the loader writes its image (R35, R230). -/
def State.powerOn (c : Config) : State where
  regs      := Vector.replicate 8 0x0000
  pc        := c.loadOrigin
  cond      := .zero
  ir        := 0x0000
  runState  := .running
  haltCause := .none
  mem       := []
  kbd       := { queue := [], arrivals := [] }
  out       := []
  stopReq   := false
  env       := []
  cfg       := c

/-- The state after reset under the default parameters. -/
def State.reset : State := State.powerOn Config.default

/-- Why an instruction takes no effect now. -/
inductive Fault where
  /-- The instruction needs a console byte that is not there, so its step is not enabled (R126; `stuck` in
  93_implementation_defined.md U8, U9). Raised by LD, LDI, LDR, STI (a read of the keyboard-data address) and TRAP (its
  table entry or its service), to `step` alone: `step` answers with the machine waiting, never with this fault.
  Safe: the state is the one before the instruction (log entry 5). -/
  | consoleHold
  deriving DecidableEq, Repr

/-- Why an instruction has no meaning. -/
inductive Refusal where
  /-- Raised by an arm of `exec` for an instruction that is not modelled, by its mnemonic; no arm does so. Safe. -/
  | notModelled (mnemonic : String)
  deriving DecidableEq, Repr

end Sys2Proof.Machine
end

