-- ==== Sys2Proof/Machine/Flags.lean ====
section
/-! DEFINITION. The unit `flag_updater` (40_cycle_and_units.md R122) and the register codes of COND, run_state and
halt_cause. -/

namespace Sys2Proof.Machine

/-- `setcc` as a function of the Word (10_state.md R26). -/
def condOf (v : Word) : Cond :=
  if v = 0x0000 then .zero else if v.getLsbD 15 then .negative else .positive

/-- COND as the 3-bit one-hot register of R26: bit 2 N, bit 1 Z, bit 0 P. -/
def Cond.bits : Cond → BitVec 3
  | .negative => 0b100
  | .zero => 0b010
  | .positive => 0b001

/-- The BR test (42_control.md R150). -/
def brTaken (n z p : Bool) (c : Cond) : Bool :=
  (n && c == .negative) || (z && c == .zero) || (p && c == .positive)

/-- The numeric code of `halt_cause` (R30), as the status port shows it (R125). -/
def HaltCause.code : HaltCause → BitVec 2
  | .none => 0
  | .normal => 1
  | .illegalInstruction => 2
  | .externalStop => 3

end Sys2Proof.Machine
end

