-- ==== Sys2Proof/Machine/Operands.lean ====
section
/-! DEFINITION. Operand forms: the field extensions of 00_scope.md R8, the unit `alu_16bit` (40_cycle_and_units.md
R121) and the effective addresses of 43_load_store.md R167. In all of them the PC is the incremented one (R24). -/

namespace Sys2Proof.Machine

/-- `sext_N` (R8). -/
def sext {n : Nat} (v : BitVec n) : Word := v.signExtend 16

/-- `zext_16` of a byte: the trap vector (R8) and a console byte (R54, R182, R185). -/
def zext (b : BitVec 8) : Word := b.setWidth 16

/-- Bits 7 to 0 of a Word, the byte a service writes (R183, R184). -/
def lowByte (v : Word) : Byte := v.extractLsb' 0 8

/-- The operations of `alu_16bit` (R121). -/
inductive AluOp where
  | add | and | not
  deriving DecidableEq, Repr

/-- `alu_16bit` (R121, R145): no carry, overflow, zero or sign output; `b` is unused by NOT. -/
def alu (op : AluOp) (a b : Word) : Word :=
  match op with
  | .add => a + b
  | .and => a &&& b
  | .not => ~~~a

/-- Register `r` (R9, R120). -/
def State.reg (s : State) (r : Reg) : Word := s.regs[r.toNat]'r.isLt

/-- PC-relative: `PC + sext_N(offset)` (R167; also the targets of BR and JSR, R150, R152). -/
def State.pcRel {n : Nat} (s : State) (offset : BitVec n) : Word := s.pc + sext offset

/-- Base plus offset: `R[BaseR] + sext_6(offset6)` (R167); the PC takes no part (90_conflicts.md C8). -/
def State.baseOff (s : State) (baseR : Reg) (offset6 : BitVec 6) : Word := s.reg baseR + sext offset6

end Sys2Proof.Machine
end

