-- ==== Sys2Proof/Machine/Ops.lean ====
section
/-! DEFINITION. The named operations over registers, memory and the console that every meaning is made of. An operation
that may need a console byte answers `none` where the byte is not there: the instruction then holds
(40_cycle_and_units.md R126). -/

namespace Sys2Proof.Machine

/-! ### The memory array (20_memory.md R50 to R52) -/

/-- The Word at an address. -/
def Memory.read : Memory → Nat → Word
  | [], _ => Memory.unlisted
  | (k, v) :: rest, a => if k = a then v else Memory.read rest a

/-- Take an address off the list. -/
def Memory.erase : Memory → Nat → Memory
  | [], _ => []
  | (k, v) :: rest, a => if k = a then Memory.erase rest a else (k, v) :: Memory.erase rest a

/-- Put a cell in its place by address. -/
def Memory.insert : Memory → Nat → Word → Memory
  | [], a, v => [(a, v)]
  | (k, w) :: rest, a, v => if k < a then (k, w) :: Memory.insert rest a v else (a, v) :: (k, w) :: rest

/-- Store a Word; a value that an unlisted address reads as leaves the address unlisted. -/
def Memory.write (m : Memory) (a : Nat) (v : Word) : Memory :=
  if v = Memory.unlisted then m.erase a else (m.erase a).insert a v

/-! ### One register or one port at a time -/

/-- `R[r] <- v` (R9, R120). -/
def State.setReg (s : State) (r : Reg) (v : Word) : State := { s with regs := s.regs.set r.toNat v r.isLt }

/-- `PC <- v` (R124). -/
def State.setPc (s : State) (v : Word) : State := { s with pc := v }

/-- `COND <- c`. -/
def State.setCond (s : State) (c : Cond) : State := { s with cond := c }

/-- `IR <- w` (R28). -/
def State.setIr (s : State) (w : Word) : State := { s with ir := w }

/-- The console's input side after a poll or a read. -/
def State.setKbd (s : State) (k : Keyboard) : State := { s with kbd := k }

/-- `MemWrite(a, 1, v)` (R52): every address is plain storage on a write, the two device addresses too. -/
def State.memWrite (s : State) (a : Word) (v : Word) : State := { s with mem := s.mem.write a.toNat v }

/-- `console.write_byte(b)` (R70). -/
def State.writeByte (s : State) (b : Byte) : State := { s with out := s.out ++ [b] }

/-- `halt(c)` (R9, R29, R30). -/
def State.halt (s : State) (c : HaltCause) : State := { s with runState := .halted, haltCause := c }

/-- `R[DR] <- v` and then `setcc(v)` (R23, R122): how ADD, AND, NOT, LD, LDI, LDR and LEA end. -/
def State.writeDest (s : State) (dr : Reg) (v : Word) : State := (s.setReg dr v).setCond (condOf v)

/-- `R[7] <- PC`, the incremented PC, with no change of the flags (R22): how JSR, JSRR and TRAP begin. -/
def State.link (s : State) : State := s.setReg 7 s.pc

/-! ### The console and the keyboard registers (20_memory.md R53, R54, R70) -/

/-- The next batch arrives (R33, R239). -/
def Keyboard.hear (k : Keyboard) : Keyboard :=
  match k.arrivals with
  | [] => k
  | batch :: later => { queue := k.queue ++ batch, arrivals := later }

/-- The next byte of a queue, for which the batches to come are awaited while it is empty; `none` if they bring none. -/
def Keyboard.await : List Byte → List (List Byte) → Option (Byte × Keyboard)
  | b :: queue, arrivals => some (b, { queue := queue, arrivals := arrivals })
  | [], [] => none
  | [], batch :: later => Keyboard.await batch later

/-- Every byte that is there or still to arrive, in order. -/
def Keyboard.pending (k : Keyboard) : List Byte := k.queue ++ k.arrivals.flatten

/-- `console.key_available()` (R70): non-empty as the queue is at the moment of the poll, and the console after it. -/
def State.keyAvailable (s : State) : Bool × State := (!s.kbd.hear.queue.isEmpty, s.setKbd s.kbd.hear)

/-- `console.read_byte()` (R70): the head of the input queue; `none` where it is empty and no byte arrives. -/
def State.readByte (s : State) : Option (Byte × State) :=
  match Keyboard.await s.kbd.queue s.kbd.arrivals with
  | none => none
  | some (b, k) => some (b, s.setKbd k)

/-- `kbsr_read()` (R53): a poll, which consumes nothing. -/
def State.kbsrRead (s : State) : Word × State :=
  match s.keyAvailable with
  | (true, t) => (s.cfg.kbsrReady, t)
  | (false, t) => (s.cfg.kbsrIdle, t)

/-- `kbdr_read()` (R54): consumes a byte, holds if there is none. -/
def State.kbdrRead (s : State) : Option (Word × State) :=
  match s.readByte with
  | none => none
  | some (b, t) => some (zext b, t)

/-! ### The one read path (R51) -/

/-- `MemRead(a, 1)` (R51): every read of the CORE, intercepted at the two device addresses. -/
def State.memRead (s : State) (a : Word) : Option (Word × State) :=
  if a = s.cfg.kbsrAddr then some s.kbsrRead
  else if a = s.cfg.kbdrAddr then s.kbdrRead
  else some (s.mem.read a.toNat, s)

/-- Fetch (40_cycle_and_units.md R112): `IR <- MemRead(PC, 1)`, then `PC <- PC + 1`. -/
def State.fetch (s : State) : Option State :=
  match s.memRead s.pc with
  | none => none
  | some (w, t) => some ((t.setIr w).setPc (t.pc + 1))

/-- The data read of a load: `v <- MemRead(ea, 1)`, `R[DR] <- v`, `setcc(v)` (R160, R161, R162). -/
def State.loadInto (s : State) (dr : Reg) (ea : Word) : Option State :=
  match s.memRead ea with
  | none => none
  | some (v, t) => some (t.writeDest dr v)

/-! ### Exceptions (60_exceptions.md) -/

/-- `raise IllegalInstruction` (R201): the machine's only fault. Nothing is saved and nothing is vectored. -/
def State.raiseIllegal (s : State) : State := s.halt .illegalInstruction

/-- TRAP entry (R206, 44_trap_and_illegal.md R180): the incremented PC to R7, then the table entry at
`zext_16(trapvect8)` to the PC. The return from a trap routine is `JMP R7` (R208): `State.jumpReg` of R7. -/
def State.trapEntry (s : State) (vector : BitVec 8) : Option State :=
  match s.link.memRead (zext vector) with
  | none => none
  | some (target, t) => some (t.setPc target)

/-- `PC <- R[BaseR]` (R151, R153), and with R7 the return (R208). -/
def State.jumpReg (s : State) (baseR : Reg) : State := s.setPc (s.reg baseR)

/-! ### The native services (44_trap_and_illegal.md R181 to R187) -/

/-- GETC (R182). -/
def State.getc (s : State) : Option State :=
  match s.readByte with
  | none => none
  | some (b, t) => some (t.setReg 0 (zext b))

/-- OUT (R183). -/
def State.putChar (s : State) : State := s.writeByte (lowByte (s.reg 0))

/-- The loop of PUTS (R184) from address `a`, for at most `fuel` reads. -/
def State.putsLoop : Nat → Word → State → Option State
  | 0, _, _ => none
  | fuel + 1, a, s =>
    match s.memRead a with
    | none => none
    | some (w, t) => if w = 0x0000 then some t else State.putsLoop fuel (a + 1) (t.writeByte (lowByte w))

/-- A bound on the reads PUTS can make. Every 65,536 consecutive reads meet the keyboard-data address once, where a
byte is consumed or the instruction holds, or, were the two device addresses equal, a batch arrives; so a string that
has not ended by then never ends (log entry 8). -/
def State.putsFuel (s : State) : Nat := memWords * (s.kbd.pending.length + s.kbd.arrivals.length + 1)

/-- The string from address `a` to the console (R184). -/
def State.putsFrom (s : State) (a : Word) : Option State := State.putsLoop s.putsFuel a s

/-- PUTS (R184): the string at the address in R0. -/
def State.puts (s : State) : Option State := s.putsFrom (s.reg 0)

/-- The loop of READLINE (R185), the buffer going on at address `a`, for at most `fuel` bytes. -/
def State.readLineLoop : Nat → Word → State → Option State
  | 0, _, _ => none
  | fuel + 1, a, s =>
    match s.readByte with
    | none => none
    | some (b, t) =>
      if b = t.cfg.lineEnd then some (t.memWrite a 0x0000)
      else State.readLineLoop fuel (a + 1) (t.memWrite a (zext b))

/-- A line from the console to a buffer at address `a` (R185). It can take no more bytes than are there or to arrive. -/
def State.readLineTo (s : State) (a : Word) : Option State := State.readLineLoop s.kbd.pending.length a s

/-- READLINE (R185): the buffer at the address in R0. -/
def State.readLine (s : State) : Option State := s.readLineTo (s.reg 0)

/-- The service table (R181): the native service of a vector; a vector that has none does nothing (R187). -/
def State.service (s : State) (vector : BitVec 8) : Option State :=
  if vector = s.cfg.vecGetc then s.getc
  else if vector = s.cfg.vecOut then some s.putChar
  else if vector = s.cfg.vecPuts then s.puts
  else if vector = s.cfg.vecReadLine then s.readLine
  else if vector = s.cfg.vecHalt then some (s.halt .normal)
  else some s

/-! ### Answers -/

/-- The answer of a meaning whose reads may hold. -/
def answer : Option State → Host.Outcome State Fault Refusal
  | some t => .next t
  | none => .fault .consoleHold

/-- The answer of a step that began in `s`: an instruction that holds has not happened, so the machine waits in `s`
(40_cycle_and_units.md R116, R126). -/
def retire (s : State) : Host.Outcome State Fault Refusal → Host.Outcome State Fault Refusal
  | .next t => .next t
  | .fault .consoleHold => .next s
  | .refused r => .refused r

end Sys2Proof.Machine
end

