-- ==== Sys2Proof/Machine/Control.lean ====
section
/-! DEFINITION. Control transfer: BR, JMP, JSR and JSRR (42_control.md). None sets the flags or touches memory (R154). -/

namespace Sys2Proof.Machine

/-- BR (R150). -/
def execBr (n z p : Bool) (offset9 : BitVec 9) (s : State) : Host.Outcome State Fault Refusal :=
  .next (if brTaken n z p s.cond then s.setPc (s.pcRel offset9) else s)

/-- JMP, and RET with R7 (R151). -/
def execJmp (baseR : Reg) (s : State) : Host.Outcome State Fault Refusal :=
  .next (s.jumpReg baseR)

/-- JSR (R152). -/
def execJsr (offset11 : BitVec 11) (s : State) : Host.Outcome State Fault Refusal :=
  .next (s.link.setPc (s.pcRel offset11))

/-- JSRR (R153): the base register is read after the link is written, so `JSRR R7` does not jump. -/
def execJsrr (baseR : Reg) (s : State) : Host.Outcome State Fault Refusal :=
  .next (s.link.jumpReg baseR)

end Sys2Proof.Machine
end

