-- ==== Sys2Proof/Machine/LoadStore.lean ====
section
/-! DEFINITION. Loads and stores: LD, LDI, LDR, LEA, ST, STI and STR (43_load_store.md). -/

namespace Sys2Proof.Machine

/-- LD (R160). -/
def execLd (dr : Reg) (offset9 : BitVec 9) (s : State) : Host.Outcome State Fault Refusal :=
  answer (s.loadInto dr (s.pcRel offset9))

/-- LDI (R161): the pointer read, then the data read. -/
def execLdi (dr : Reg) (offset9 : BitVec 9) (s : State) : Host.Outcome State Fault Refusal :=
  answer ((s.memRead (s.pcRel offset9)).bind fun p => p.2.loadInto dr p.1)

/-- LDR (R162). -/
def execLdr (dr baseR : Reg) (offset6 : BitVec 6) (s : State) : Host.Outcome State Fault Refusal :=
  answer (s.loadInto dr (s.baseOff baseR offset6))

/-- LEA (R163): no memory access; the flags are set from the address. -/
def execLea (dr : Reg) (offset9 : BitVec 9) (s : State) : Host.Outcome State Fault Refusal :=
  .next (s.writeDest dr (s.pcRel offset9))

/-- ST (R164). -/
def execSt (sr : Reg) (offset9 : BitVec 9) (s : State) : Host.Outcome State Fault Refusal :=
  .next (s.memWrite (s.pcRel offset9) (s.reg sr))

/-- STI (R165): the pointer read, then the write at the pointer. -/
def execSti (sr : Reg) (offset9 : BitVec 9) (s : State) : Host.Outcome State Fault Refusal :=
  answer ((s.memRead (s.pcRel offset9)).map fun p => p.2.memWrite p.1 (s.reg sr))

/-- STR (R166). -/
def execStr (sr baseR : Reg) (offset6 : BitVec 6) (s : State) : Host.Outcome State Fault Refusal :=
  .next (s.memWrite (s.baseOff baseR offset6) (s.reg sr))

end Sys2Proof.Machine
end

