-- ==== Sys2Proof/Machine/Operate.lean ====
section
/-! DEFINITION. The operate instructions ADD, AND and NOT (41_operate.md). -/

namespace Sys2Proof.Machine

/-- ADD, register mode (R140). -/
def execAddReg (dr sr1 sr2 : Reg) (s : State) : Host.Outcome State Fault Refusal :=
  .next (s.writeDest dr (alu .add (s.reg sr1) (s.reg sr2)))

/-- ADD, immediate mode (R141). -/
def execAddImm (dr sr1 : Reg) (imm5 : BitVec 5) (s : State) : Host.Outcome State Fault Refusal :=
  .next (s.writeDest dr (alu .add (s.reg sr1) (sext imm5)))

/-- AND, register mode (R142). -/
def execAndReg (dr sr1 sr2 : Reg) (s : State) : Host.Outcome State Fault Refusal :=
  .next (s.writeDest dr (alu .and (s.reg sr1) (s.reg sr2)))

/-- AND, immediate mode (R143). -/
def execAndImm (dr sr1 : Reg) (imm5 : BitVec 5) (s : State) : Host.Outcome State Fault Refusal :=
  .next (s.writeDest dr (alu .and (s.reg sr1) (sext imm5)))

/-- NOT (R144). -/
def execNot (dr sr1 : Reg) (s : State) : Host.Outcome State Fault Refusal :=
  .next (s.writeDest dr (alu .not (s.reg sr1) 0x0000))

end Sys2Proof.Machine
end

