-- ==== Sys2Proof/Machine/Trap.lean ====
section
/-! DEFINITION. TRAP with its services, and the two opcodes that are a decode error (44_trap_and_illegal.md). -/

namespace Sys2Proof.Machine

/-- TRAP (R180): the link, the table jump, then the native service of the vector, as one atomic instruction. -/
def execTrap (trapvect8 : BitVec 8) (s : State) : Host.Outcome State Fault Refusal :=
  answer ((s.trapEntry trapvect8).bind fun t => t.service trapvect8)

/-- RTI (R188): the decode error. -/
def execRti (s : State) : Host.Outcome State Fault Refusal :=
  .next s.raiseIllegal

/-- RES (R189): the decode error. -/
def execRes (s : State) : Host.Outcome State Fault Refusal :=
  .next s.raiseIllegal

end Sys2Proof.Machine
end

