-- ==== Sys2Proof/Machine/Environment.lean ====
section
/-! DEFINITION. The environment's moves between instructions (70_reset_and_hazards.md R230 to R232, R239) and where they
land: at the top of a step, before the stop request is examined. The bytes that arrive during an instruction are
`Keyboard.arrivals` (log entry 7). -/

namespace Sys2Proof.Machine

/-- The memory the loader leaves: zero, then the image's Words in the order it writes them (R230, R232). -/
def Memory.load (image : List (Word × Word)) : Memory :=
  image.foldl (fun m cell => m.write cell.1.toNat cell.2) []

/-- Reset and load (R230): R35's values with the given load origin, the other parameters kept, the memory zeroed and
then loaded. Nothing of the run survives; the moves and bytes still to come are the environment's own (log entry 11). -/
def State.resetLoad (s : State) (origin : Word) (image : List (Word × Word)) : State :=
  { State.powerOn { s.cfg with loadOrigin := origin } with
    mem := Memory.load image, kbd := { queue := [], arrivals := s.kbd.arrivals }, env := s.env }

/-- One move. A reset is taken whenever it is due, from a RUNNING machine as from a HALTED one: DESIGN CHOICE, since
R239 has the move "before the run" and R230 gives reset as an input with no word on when (log entry 22). -/
def State.move (s : State) : EnvMove → State
  | .key b => s.setKbd { s.kbd with queue := s.kbd.queue ++ [b] }
  | .stop => { s with stopReq := true }
  | .reset origin image => s.resetLoad origin image

/-- The moves of the first entry of the schedule, in order; the entry is used up. -/
def State.land (s : State) : State :=
  match s.env with
  | [] => s
  | moves :: rest => moves.foldl State.move { s with env := rest }

end Sys2Proof.Machine
end

