-- ==== Sys2Proof/Machine/Cycle.lean ====
section
/-! DEFINITION. The CORE's fetch-decode-execute step (40_cycle_and_units.md R110 to R116). -/

namespace Sys2Proof.Machine

/-- The CORE's own step (R110). HALTED performs none (10_state.md R29): the state stays (log entry 6). The stop request
is examined before the fetch (R111). An instruction that holds, at its fetch or in its execution, leaves the state as it
was (R126; log entry 5). -/
def coreStep (s : State) : Host.Outcome State Fault Refusal :=
  match s.runState with
  | .halted => .next s
  | .running =>
    match s.stopReq with
    | true => .next (s.halt .externalStop)
    | false =>
      match s.fetch with
      | none => .next s
      | some t => retire s (exec (decode t.ir) t)

end Sys2Proof.Machine
end

