-- ==== Sys2Proof/Machine/Step.lean ====
section
/-! DEFINITION. The step of the whole machine (40_cycle_and_units.md R110, 70_reset_and_hazards.md R239), and the placing
of one instruction for it to fetch. -/

namespace Sys2Proof.Machine

/-- One step: the environment's moves that are due land, then the CORE steps. -/
def step (s : State) : Host.Outcome State Fault Refusal := coreStep s.land

/-- The instruction of `nbits` bits with the value `w` stored at the PC. The next step runs it where the machine is
RUNNING, no stop is requested, no move is due and the PC is neither device address, as after reset (log entry 12). -/
def State.withFetchWord (s : State) (nbits w : Nat) : State :=
  s.memWrite s.pc (BitVec.ofNat 16 (w % 2 ^ nbits))

end Sys2Proof.Machine
end

