-- ==== Sys2Proof/Safety.lean ====
section
/-! DEFINITION. What every state of a run satisfies, and what claims about runs are stated in. -/

namespace Sys2Proof.Machine

/-- `halt_cause` is NONE exactly while RUNNING (10_state.md R30: written only together with `run_state <- HALTED` and
by reset). -/
def State.causeAgrees (s : State) : Bool :=
  match s.runState, s.haltCause with
  | .running, .none => true
  | .halted, .normal => true
  | .halted, .illegalInstruction => true
  | .halted, .externalStop => true
  | .running, .normal => false
  | .running, .illegalInstruction => false
  | .running, .externalStop => false
  | .halted, .none => false

/-- The machine's invariant: memory in its canonical form, parameters that meet R5's constraint, and a halt cause that
agrees with the run state. -/
def State.inv (s : State) : Bool := s.mem.wf && s.cfg.wf && s.causeAgrees

end Sys2Proof.Machine
end

