-- ==== Sys2Proof/Certificates/Slice0/Obligations.lean ====
section
/-! DEFINITION. The statements for the provers, and the few words they are written in. -/

namespace Sys2Proof.Claims

open Sys2Proof.Machine

/-- COND holds the flag of `v` by its signed reading (00_scope.md R7, 10_state.md R26). -/
def FlagFor (v : Word) (c : Cond) : Prop :=
  (c = .zero ↔ v = 0x0000) ∧ (c = .negative ↔ v.toInt < 0) ∧ (c = .positive ↔ 0 < v.toInt)

/-- Every register outside `ds` is unchanged. -/
def SameRegsBut (ds : List Reg) (s t : State) : Prop := ∀ r : Reg, r ∉ ds → t.reg r = s.reg r

/-- Every Word of memory reads as before. -/
def SameMem (s t : State) : Prop := ∀ a : Nat, t.mem.read a = s.mem.read a

/-- The console's input, what is there and what is to arrive, and its output are unchanged. -/
def SameConsole (s t : State) : Prop := t.kbd = s.kbd ∧ t.out = s.out

/-- The run state and the halt cause are unchanged. -/
def SameRun (s t : State) : Prop := t.runState = s.runState ∧ t.haltCause = s.haltCause

/-- IR, the stop input, the environment's schedule and the parameters are unchanged. -/
def SameInputs (s t : State) : Prop := t.ir = s.ir ∧ t.stopReq = s.stopReq ∧ t.env = s.env ∧ t.cfg = s.cfg

/-- `R[dr] <- v`, `setcc(v)`, and nothing else: every other register, the PC, every Word of memory, the console, the run
state and the inputs are unchanged. -/
def WritesDest (dr : Reg) (v : Word) (s t : State) : Prop :=
  t.reg dr = v ∧ FlagFor v t.cond ∧ SameRegsBut [dr] s t ∧ t.pc = s.pc ∧ SameMem s t ∧ SameConsole s t ∧
    SameRun s t ∧ SameInputs s t

/-- `mem[a] <- v` and nothing else: every register, the flag, the PC, every other Word of memory, the console, the run
state and the inputs are unchanged. -/
def StoresWord (a v : Word) (s t : State) : Prop :=
  t.mem.read a.toNat = v ∧ (∀ b : Nat, b ≠ a.toNat → t.mem.read b = s.mem.read b) ∧ SameRegsBut [] s t ∧
    t.cond = s.cond ∧ t.pc = s.pc ∧ SameConsole s t ∧ SameRun s t ∧ SameInputs s t

/-- A plain address: neither device address (20_memory.md R61). -/
abbrev Plain (s : State) (a : Word) : Prop := a ≠ s.cfg.kbsrAddr ∧ a ≠ s.cfg.kbdrAddr

/-- The console's input as a poll finds it and leaves it: the next batch of bytes has arrived at the end of the queue
(10_state.md R33; the batches are the model's way to say when bytes arrive, log entry 7). -/
def Heard (k : Keyboard) : Keyboard := { queue := k.queue ++ k.arrivals.headD [], arrivals := k.arrivals.tail }

/-- `console.read_byte()` completes with `b` and leaves the input `k'` (20_memory.md R70): the head of the queue; while
the queue is empty, the first byte of the first batch that brings one. -/
def ByteGives (k : Keyboard) (b : Byte) (k' : Keyboard) : Prop :=
  (k.queue = b :: k'.queue ∧ k'.arrivals = k.arrivals) ∨
  (k.queue = [] ∧ ∃ n : Nat, k.arrivals = List.replicate n [] ++ (b :: k'.queue) :: k'.arrivals)

/-- `console.read_byte()`, once for each of the bytes in turn. -/
def BytesGive (k : Keyboard) : List Byte → Keyboard → Prop
  | [], k' => k' = k
  | b :: bytes, k' => ∃ m : Keyboard, ByteGives k b m ∧ BytesGive m bytes k'

/-- No byte is there and none is to arrive, so `console.read_byte()` is not enabled. -/
def NoByte (k : Keyboard) : Prop := k.queue = [] ∧ ∀ batch ∈ k.arrivals, batch = []

/-- `MemRead(a, 1)` completes with `v` and leaves the console input `k` (20_memory.md R51, R53, R54): the status
address polls, the data address consumes a byte, a plain address reads storage. The two status Words, the zero-extended
data byte and the interception of every read are the decisions D6 and D8 (log entry 2). -/
def ReadGives (s : State) (a v : Word) (k : Keyboard) : Prop :=
  (a = s.cfg.kbsrAddr ∧ k = Heard s.kbd ∧ v = if k.queue = [] then s.cfg.kbsrIdle else s.cfg.kbsrReady) ∨
  (a ≠ s.cfg.kbsrAddr ∧ a = s.cfg.kbdrAddr ∧ ∃ b : Byte, ByteGives s.kbd b k ∧ v = b.setWidth 16) ∨
  (Plain s a ∧ k = s.kbd ∧ v = s.mem.read a.toNat)

/-- `MemRead(a, 1)` waits for a byte (R54, 40_cycle_and_units.md R126; that every read is intercepted is D8, log entry
2). -/
def ReadHolds (s : State) (a : Word) : Prop := a ≠ s.cfg.kbsrAddr ∧ a = s.cfg.kbdrAddr ∧ NoByte s.kbd

/-- TRAP's entry sequence (60_exceptions.md R206): the incremented PC in R7, the table entry in the PC, the flag kept. -/
def TrapEntered (target : Word) (s t : State) : Prop := t.reg 7 = s.pc ∧ t.pc = target ∧ t.cond = s.cond

/-- The machine fetches and executes in its next step: once the due moves have landed it is RUNNING with no stop
requested. -/
def Ready (s : State) : Prop := s.land.runState = .running ∧ s.land.stopReq = false

/-- No reset is among the moves that are due. -/
def NoResetDue (s : State) : Prop :=
  ∀ moves rest, s.env = moves :: rest → ∀ origin image, EnvMove.reset origin image ∉ moves

/-- Two states that differ only in what no program can observe: IR, the console output, and the two cells under the
device addresses. -/
def Alike (s t : State) : Prop :=
  t = { s with mem := t.mem, out := t.out, ir := t.ir } ∧
    ∀ a : Word, Plain s a → t.mem.read a.toNat = s.mem.read a.toNat

/-- Whether a form writes COND (10_state.md R27). -/
def setsFlags : Instr → Bool
  | .addReg _ _ _ => true
  | .addImm _ _ _ => true
  | .andReg _ _ _ => true
  | .andImm _ _ _ => true
  | .not _ _ => true
  | .ld _ _ => true
  | .ldi _ _ => true
  | .ldr _ _ _ => true
  | .lea _ _ => true
  | .br _ _ _ _ => false
  | .jmp _ => false
  | .jsr _ => false
  | .jsrr _ => false
  | .st _ _ => false
  | .sti _ _ => false
  | .str _ _ _ => false
  | .trap _ => false
  | .rti => false
  | .res => false

/-- The registers a form writes (10_state.md R21): DR; R7 for the links; R0 besides for the read-one-character service. -/
def writesRegs (c : Config) : Instr → List Reg
  | .addReg dr _ _ => [dr]
  | .addImm dr _ _ => [dr]
  | .andReg dr _ _ => [dr]
  | .andImm dr _ _ => [dr]
  | .not dr _ => [dr]
  | .ld dr _ => [dr]
  | .ldi dr _ => [dr]
  | .ldr dr _ _ => [dr]
  | .lea dr _ => [dr]
  | .jsr _ => [7]
  | .jsrr _ => [7]
  | .trap v => if v = c.vecGetc then [7, 0] else [7]
  | .br _ _ _ _ => []
  | .jmp _ => []
  | .st _ _ => []
  | .sti _ _ => []
  | .str _ _ _ => []
  | .rti => []
  | .res => []

/-- Whether a form may write memory (10_state.md R32): the stores, and TRAP to the read-line service. -/
def mayStore (c : Config) : Instr → Bool
  | .st _ _ => true
  | .sti _ _ => true
  | .str _ _ _ => true
  | .trap v => v == c.vecReadLine
  | .addReg _ _ _ => false
  | .addImm _ _ _ => false
  | .andReg _ _ _ => false
  | .andImm _ _ _ => false
  | .not _ _ => false
  | .br _ _ _ _ => false
  | .jmp _ => false
  | .jsr _ => false
  | .jsrr _ => false
  | .ld _ _ => false
  | .ldi _ _ => false
  | .ldr _ _ _ => false
  | .lea _ _ => false
  | .rti => false
  | .res => false

/-- Whether a form may write the PC when it executes (10_state.md R25). -/
def mayJump : Instr → Bool
  | .br _ _ _ _ => true
  | .jmp _ => true
  | .jsr _ => true
  | .jsrr _ => true
  | .trap _ => true
  | .addReg _ _ _ => false
  | .addImm _ _ _ => false
  | .andReg _ _ _ => false
  | .andImm _ _ _ => false
  | .not _ _ => false
  | .ld _ _ => false
  | .ldi _ _ => false
  | .ldr _ _ _ => false
  | .lea _ _ => false
  | .st _ _ => false
  | .sti _ _ => false
  | .str _ _ _ => false
  | .rti => false
  | .res => false

end Sys2Proof.Claims

open Sys2Proof Sys2Proof.Machine Sys2Proof.Claims

/-! ### Encoding -/

/-- 30_encoding.md, formats and fields: no bit of an instruction is lost between its canonical Word and its decoding.
The opcode map and the field positions are the spec's decisions D1 and D2 (log entry 4). -/
def Obligations.DecodeEncodeRoundTrip : Prop := ∀ i : Instr, decode (encode i) = i

/-- 30_encoding.md, reserved, illegal and hint encodings: each Word matches exactly one row of the opcode table, the row
of the form it decodes to (rows by decisions D1 and D2). -/
def Obligations.EveryWordMatchesExactlyItsRow : Prop :=
  ∀ (w : Word) (i : Instr), i.row.holds w = true ↔ i.row = (decode w).row

/-- 30_encoding.md, ignored bits (decision D4): a Word decodes alike whatever stands in the bits no field uses. -/
def Obligations.IgnoredBitsAreNotExamined : Prop :=
  ∀ w x : Word, w &&& (decode w).examined = x &&& (decode w).examined → decode x = decode w

/-- 30_encoding.md, formats and fields: encoding what a Word decodes to gives back every bit the decoder examined. -/
def Obligations.EncodeDecodeKeepsExaminedBits : Prop :=
  ∀ w : Word, encode (decode w) &&& (decode w).examined = w &&& (decode w).examined

/-- 95_test_vectors.md, table V-DEC: the words written there decode to the instructions written there. -/
def Obligations.SpecWordsDecodeAsWritten : Prop :=
  decode 0x0000 = .br false false false 0 ∧ decode 0x1042 = .addReg 0 1 2 ∧ decode 0x101B = .addReg 0 0 3 ∧
  decode 0x103F = .addImm 0 0 0x1F ∧ decode 0x56E0 = .andImm 3 3 0 ∧ decode 0x907F = .not 0 1 ∧
  decode 0x9040 = .not 0 1 ∧ decode 0xC1C0 = .jmp 7 ∧ decode 0xCFFF = .jmp 7 ∧ decode 0x4805 = .jsr 5 ∧
  decode 0x40C0 = .jsrr 3 ∧ decode 0x46C5 = .jsrr 3 ∧ decode 0xF025 = .trap 0x25 ∧ decode 0xFF25 = .trap 0x25 ∧
  decode 0x8FFF = .rti ∧ decode 0xD123 = .res

/-- 30_encoding.md, illegal encodings: exactly the Words with opcode 8 or 13 are illegal, and every other is legal. -/
def Obligations.IllegalWordsAreOpcodes8And13 : Prop :=
  ∀ w : Word, (decode w).legal = false ↔ (w.extractLsb' 12 4 = 8 ∨ w.extractLsb' 12 4 = 13)

/-! ### Words and flags -/

/-- 00_scope.md R8: sign extension of a 5, 6, 9 or 11-bit field, by value and bit by bit, the source's two examples, and
the zero extension of the trap vector. -/
def Obligations.SignExtensionFillsTheHighBits : Prop :=
  (∀ N : Nat, N = 5 ∨ N = 6 ∨ N = 9 ∨ N = 11 → ∀ v : BitVec N,
    (sext v).toNat = (if v.getLsbD (N - 1) = true then v.toNat + (0xFFFF - (2 ^ N - 1)) else v.toNat) ∧
    (∀ i : Nat, i < N → (sext v).getLsbD i = v.getLsbD i) ∧
    (∀ i : Nat, N ≤ i → i < 16 → (sext v).getLsbD i = v.getLsbD (N - 1))) ∧
  sext (0x1F : BitVec 5) = 0xFFFF ∧ sext (0x0F : BitVec 5) = 0x000F ∧
  (∀ v : BitVec 8, (zext v).toNat = v.toNat ∧ ∀ i : Nat, 8 ≤ i → (zext v).getLsbD i = false)

/-- 10_state.md, condition flag: `setcc` is the signed reading of the Word, and the one-hot code has exactly one bit
set (the bit numbers are decision D3). -/
def Obligations.FlagIsTheSignedReading : Prop :=
  (∀ v : Word, FlagFor v (condOf v)) ∧
  (∀ c : Cond, c.bits = 0b100 ∧ c = .negative ∨ c.bits = 0b010 ∧ c = .zero ∨ c.bits = 0b001 ∧ c = .positive)

/-- 41_operate.md, integer arithmetic laws: addition is modulo 2^16, AND and NOT are bitwise. -/
def Obligations.AluIsModularAndBitwise : Prop :=
  (∀ a b : Word, (alu .add a b).toNat = (a.toNat + b.toNat) % 65536) ∧
  (∀ (a b : Word) (i : Nat), (alu .and a b).getLsbD i = (a.getLsbD i && b.getLsbD i)) ∧
  (∀ (a b : Word) (i : Nat), i < 16 → (alu .not a b).getLsbD i = !a.getLsbD i)

/-! ### Memory -/

/-- 20_memory.md R52: a write stores at every address, the two device addresses too, changes exactly one Word and
nothing else; being a total function it never faults and never blocks. -/
def Obligations.MemWriteStoresExactlyOneWord : Prop :=
  ∀ (s : State) (a v : Word), StoresWord a v s (s.memWrite a v)

/-- 20_memory.md, the two primitives and the keyboard registers (decisions D5 to D8, log entry 2): a read is
intercepted at the two device addresses and there alone, changes nothing but the console input, and waits exactly at
the keyboard-data address with no byte there. -/
def Obligations.ReadPathInterceptsTwoAddresses : Prop :=
  ∀ (s : State) (a : Word),
    (∀ (v : Word) (u : State), s.memRead a = some (v, u) ↔ ReadGives s a v u.kbd ∧ u = { s with kbd := u.kbd }) ∧
    (s.memRead a = none ↔ ReadHolds s a)

/-- The model's own canonical form (log entry 1) over 20_memory.md's 65,536 Words: canonical memories that read alike
everywhere are the same data. -/
def Obligations.CanonicalMemoriesThatReadAlikeAreEqual : Prop :=
  ∀ m m' : Memory, m.wf = true → m'.wf = true → (∀ a : Word, m.read a.toNat = m'.read a.toNat) → m = m'

/-! ### Operate instructions -/

/-- 41_operate.md R140 (encoding as in decisions D1, D2; log entry 4). -/
def Obligations.AddRegister : Prop :=
  (∀ w : Word, w &&& 0xF020 = 0x1000 →
    decode w = .addReg (w.extractLsb' 9 3) (w.extractLsb' 6 3) (w.extractLsb' 0 3)) ∧
  ∀ (dr sr1 sr2 : Reg) (s : State),
    ∃ t, exec (.addReg dr sr1 sr2) s = .next t ∧ WritesDest dr (s.reg sr1 + s.reg sr2) s t

/-- 41_operate.md R141 (encoding as in decisions D1, D2; log entry 4). -/
def Obligations.AddImmediate : Prop :=
  (∀ w : Word, w &&& 0xF020 = 0x1020 →
    decode w = .addImm (w.extractLsb' 9 3) (w.extractLsb' 6 3) (w.extractLsb' 0 5)) ∧
  ∀ (dr sr1 : Reg) (imm5 : BitVec 5) (s : State),
    ∃ t, exec (.addImm dr sr1 imm5) s = .next t ∧ WritesDest dr (s.reg sr1 + imm5.signExtend 16) s t

/-- 41_operate.md R142 (encoding as in decisions D1, D2; log entry 4). -/
def Obligations.AndRegister : Prop :=
  (∀ w : Word, w &&& 0xF020 = 0x5000 →
    decode w = .andReg (w.extractLsb' 9 3) (w.extractLsb' 6 3) (w.extractLsb' 0 3)) ∧
  ∀ (dr sr1 sr2 : Reg) (s : State),
    ∃ t, exec (.andReg dr sr1 sr2) s = .next t ∧ WritesDest dr (s.reg sr1 &&& s.reg sr2) s t

/-- 41_operate.md R143 (encoding as in decisions D1, D2; log entry 4). -/
def Obligations.AndImmediate : Prop :=
  (∀ w : Word, w &&& 0xF020 = 0x5020 →
    decode w = .andImm (w.extractLsb' 9 3) (w.extractLsb' 6 3) (w.extractLsb' 0 5)) ∧
  ∀ (dr sr1 : Reg) (imm5 : BitVec 5) (s : State),
    ∃ t, exec (.andImm dr sr1 imm5) s = .next t ∧ WritesDest dr (s.reg sr1 &&& imm5.signExtend 16) s t

/-- 41_operate.md R144 (encoding as in decisions D1, D2; log entry 4). -/
def Obligations.NotComplements : Prop :=
  (∀ w : Word, w &&& 0xF000 = 0x9000 → decode w = .not (w.extractLsb' 9 3) (w.extractLsb' 6 3)) ∧
  ∀ (dr sr1 : Reg) (s : State), ∃ t, exec (.not dr sr1) s = .next t ∧ WritesDest dr (~~~s.reg sr1) s t

/-! ### Control transfer -/

/-- 42_control.md, conditional branch (which bit goes with which flag is decision D3): the PC becomes the target if a
condition bit matches the flag, which is the bitwise AND of the bits with the one-hot flag, and nothing else changes in
either case. -/
def Obligations.BranchOnMatchingCondition : Prop :=
  (∀ w : Word, w &&& 0xF000 = 0x0000 →
    decode w = .br (w.getLsbD 11) (w.getLsbD 10) (w.getLsbD 9) (w.extractLsb' 0 9)) ∧
  ∀ (n z p : Bool) (offset9 : BitVec 9) (s : State),
    exec (.br n z p offset9) s = .next { s with
      pc := if (n = true ∧ s.cond = .negative) ∨ (z = true ∧ s.cond = .zero) ∨ (p = true ∧ s.cond = .positive)
        then s.pc + offset9.signExtend 16 else s.pc } ∧
    (brTaken n z p s.cond = true ↔ (BitVec.ofBool n ++ BitVec.ofBool z ++ BitVec.ofBool p) &&& s.cond.bits ≠ 0)

/-- 42_control.md R151 (encoding as in decisions D1, D2; log entry 4): the PC becomes the register's content and
nothing else changes, R7 neither. -/
def Obligations.JumpToRegister : Prop :=
  (∀ w : Word, w &&& 0xF000 = 0xC000 → decode w = .jmp (w.extractLsb' 6 3)) ∧
  ∀ (baseR : Reg) (s : State), exec (.jmp baseR) s = .next { s with pc := s.reg baseR }

/-- 42_control.md R152 (encoding as in decisions D1, D2; log entry 4): the incremented PC goes to R7, the target is
the incremented PC plus the offset, the flag and everything else are unchanged. -/
def Obligations.JumpToSubroutineByOffset : Prop :=
  (∀ w : Word, w &&& 0xF800 = 0x4800 → decode w = .jsr (w.extractLsb' 0 11)) ∧
  ∀ (offset11 : BitVec 11) (s : State),
    ∃ t, exec (.jsr offset11) s = .next t ∧ t.reg 7 = s.pc ∧ t.pc = s.pc + offset11.signExtend 16 ∧
      SameRegsBut [7] s t ∧ t.cond = s.cond ∧ SameMem s t ∧ SameConsole s t ∧ SameRun s t ∧ SameInputs s t

/-- 42_control.md, jump to subroutine by register (decision D21): the link is written first, so JSRR R7 goes to the next
instruction. -/
def Obligations.JumpToSubroutineByRegister : Prop :=
  (∀ w : Word, w &&& 0xF800 = 0x4000 → decode w = .jsrr (w.extractLsb' 6 3)) ∧
  ∀ (baseR : Reg) (s : State),
    ∃ t, exec (.jsrr baseR) s = .next t ∧ t.reg 7 = s.pc ∧ t.pc = (if baseR = 7 then s.pc else s.reg baseR) ∧
      SameRegsBut [7] s t ∧ t.cond = s.cond ∧ SameMem s t ∧ SameConsole s t ∧ SameRun s t ∧ SameInputs s t

/-! ### Loads and stores -/

/-- 43_load_store.md, LD (encoding by decisions D1, D2, log entry 4; what a device read gives by D6, D8, log entry 2,
and when a byte arrives by log entry 7): wherever the read completes, plain storage or a device, DR and the flag are
written from it, and nothing else changes but the console input a device read consumes. -/
def Obligations.LoadPcRelative : Prop :=
  (∀ w : Word, w &&& 0xF000 = 0x2000 → decode w = .ld (w.extractLsb' 9 3) (w.extractLsb' 0 9)) ∧
  ∀ (dr : Reg) (offset9 : BitVec 9) (s : State) (v : Word) (k : Keyboard),
    ReadGives s (s.pc + offset9.signExtend 16) v k →
    ∃ t, exec (.ld dr offset9) s = .next t ∧ WritesDest dr v { s with kbd := k } t

/-- 43_load_store.md, LDI (encoding by decisions D1, D2, log entry 4; what a device read gives by D6, D8, log entry 2,
and when a byte arrives by log entry 7): the pointer is read first, the data at the pointer second, each intercepted
at a device address; DR and the flag come from the data. -/
def Obligations.LoadIndirect : Prop :=
  (∀ w : Word, w &&& 0xF000 = 0xA000 → decode w = .ldi (w.extractLsb' 9 3) (w.extractLsb' 0 9)) ∧
  ∀ (dr : Reg) (offset9 : BitVec 9) (s : State) (ea v : Word) (k k' : Keyboard),
    ReadGives s (s.pc + offset9.signExtend 16) ea k → ReadGives { s with kbd := k } ea v k' →
    ∃ t, exec (.ldi dr offset9) s = .next t ∧ WritesDest dr v { s with kbd := k' } t

/-- 43_load_store.md, LDR (encoding by decisions D1, D2, log entry 4; what a device read gives by D6, D8, log entry 2,
and when a byte arrives by log entry 7): the base register takes no part but for the address, unless it is DR. -/
def Obligations.LoadBaseOffset : Prop :=
  (∀ w : Word, w &&& 0xF000 = 0x6000 →
    decode w = .ldr (w.extractLsb' 9 3) (w.extractLsb' 6 3) (w.extractLsb' 0 6)) ∧
  ∀ (dr baseR : Reg) (offset6 : BitVec 6) (s : State) (v : Word) (k : Keyboard),
    ReadGives s (s.reg baseR + offset6.signExtend 16) v k →
    ∃ t, exec (.ldr dr baseR offset6) s = .next t ∧ WritesDest dr v { s with kbd := k } t

/-- 43_load_store.md R163 (encoding as in decisions D1, D2; log entry 4): the address itself goes to DR and sets the
flag; memory and the console are not touched. -/
def Obligations.LoadEffectiveAddress : Prop :=
  (∀ w : Word, w &&& 0xF000 = 0xE000 → decode w = .lea (w.extractLsb' 9 3) (w.extractLsb' 0 9)) ∧
  ∀ (dr : Reg) (offset9 : BitVec 9) (s : State),
    ∃ t, exec (.lea dr offset9) s = .next t ∧ WritesDest dr (s.pc + offset9.signExtend 16) s t

/-- 43_load_store.md R164 (encoding as in decisions D1, D2; log entry 4). -/
def Obligations.StorePcRelative : Prop :=
  (∀ w : Word, w &&& 0xF000 = 0x3000 → decode w = .st (w.extractLsb' 9 3) (w.extractLsb' 0 9)) ∧
  ∀ (sr : Reg) (offset9 : BitVec 9) (s : State),
    ∃ t, exec (.st sr offset9) s = .next t ∧ StoresWord (s.pc + offset9.signExtend 16) (s.reg sr) s t

/-- 43_load_store.md, STI (encoding by decisions D1, D2, log entry 4; what a device read gives by D6, D8, log entry 2,
and when a byte arrives by log entry 7): the pointer is read, a device read where it stands at one, and the store goes
to it. -/
def Obligations.StoreIndirect : Prop :=
  (∀ w : Word, w &&& 0xF000 = 0xB000 → decode w = .sti (w.extractLsb' 9 3) (w.extractLsb' 0 9)) ∧
  ∀ (sr : Reg) (offset9 : BitVec 9) (s : State) (ea : Word) (k : Keyboard),
    ReadGives s (s.pc + offset9.signExtend 16) ea k →
    ∃ t, exec (.sti sr offset9) s = .next t ∧ StoresWord ea (s.reg sr) { s with kbd := k } t

/-- 43_load_store.md R166 (encoding as in decisions D1, D2; log entry 4). -/
def Obligations.StoreBaseOffset : Prop :=
  (∀ w : Word, w &&& 0xF000 = 0x7000 →
    decode w = .str (w.extractLsb' 9 3) (w.extractLsb' 6 3) (w.extractLsb' 0 6)) ∧
  ∀ (sr baseR : Reg) (offset6 : BitVec 6) (s : State),
    ∃ t, exec (.str sr baseR offset6) s = .next t ∧ StoresWord (s.reg baseR + offset6.signExtend 16) (s.reg sr) s t

/-- 40_cycle_and_units.md, holds (decision D19): LD, LDR, LDI and STI wait exactly when one of their reads, in order,
meets the keyboard-data address with no byte left. That a wait is `consoleHold` is the model's (log entry 5). -/
def Obligations.LoadsWaitExactlyForAMissingKey : Prop :=
  ∀ (r baseR : Reg) (offset9 : BitVec 9) (offset6 : BitVec 6) (s : State),
    (exec (.ld r offset9) s = .fault .consoleHold ↔ ReadHolds s (s.pc + offset9.signExtend 16)) ∧
    (exec (.ldr r baseR offset6) s = .fault .consoleHold ↔ ReadHolds s (s.reg baseR + offset6.signExtend 16)) ∧
    (exec (.sti r offset9) s = .fault .consoleHold ↔ ReadHolds s (s.pc + offset9.signExtend 16)) ∧
    (exec (.ldi r offset9) s = .fault .consoleHold ↔ ReadHolds s (s.pc + offset9.signExtend 16) ∨
      ∃ ea k, ReadGives s (s.pc + offset9.signExtend 16) ea k ∧ ReadHolds { s with kbd := k } ea)

/-- 40_cycle_and_units.md, holds: a byte appended to the input lifts the wait of a load, which then consumes it. That
the wait is the answer `consoleHold` of exec is the model's (log entry 5), and that the byte is zero-extended is
decision D6 (log entry 2). -/
def Obligations.AppendedKeyLiftsTheWait : Prop :=
  ∀ (dr : Reg) (offset9 : BitVec 9) (s : State) (b : Byte), ReadHolds s (s.pc + offset9.signExtend 16) →
    exec (.ld dr offset9) s = .fault .consoleHold ∧
    ∃ t, exec (.ld dr offset9) (s.move (.key b)) = .next t ∧ WritesDest dr (b.setWidth 16) s t

/-- 20_memory.md, instruction-fetch coherence: the Word that ST #0 stores is the very next instruction fetched. -/
def Obligations.StoreIsSeenByTheNextFetch : Prop :=
  ∀ (sr : Reg) (s : State), Plain s s.pc →
    ∃ t u, exec (.st sr 0) s = .next t ∧ t.fetch = some u ∧ u.ir = s.reg sr ∧ u.pc = s.pc + 1

/-! ### TRAP, its services, and the decode error -/

/-- 44_trap_and_illegal.md, TRAP and any other vector (decisions D2, D4, D9, D13): a vector without a native service
is the linked table jump and nothing else. What a read at a device address gives is by D6 and D8 (log entry 2). -/
def Obligations.TrapWithoutServiceIsALinkedJump : Prop :=
  (∀ w : Word, w &&& 0xF000 = 0xF000 → decode w = .trap (w.extractLsb' 0 8)) ∧
  ∀ (vector : BitVec 8) (s : State) (target : Word) (k : Keyboard), vector ∉ s.cfg.vectors →
    ReadGives s (vector.setWidth 16) target k →
    ∃ t, exec (.trap vector) s = .next t ∧ TrapEntered target s t ∧ SameRegsBut [7] s t ∧ SameMem s t ∧
      t.kbd = k ∧ t.out = s.out ∧ SameRun s t ∧ SameInputs s t

/-- 44_trap_and_illegal.md, service GETC (decisions D9, D11, D14; log entry 13): R0 is the next input byte,
zero-extended, and the flag is kept. When a byte arrives is as log entry 7 has it. What a read at a device address
gives is by D6 and D8 (log entry 2). -/
def Obligations.TrapGetcReadsOneByte : Prop :=
  ∀ (s : State) (target : Word) (b : Byte) (k k' : Keyboard),
    ReadGives s (s.cfg.vecGetc.setWidth 16) target k → ByteGives k b k' →
    ∃ t, exec (.trap s.cfg.vecGetc) s = .next t ∧ TrapEntered target s t ∧ t.reg 0 = b.setWidth 16 ∧
      SameRegsBut [7, 0] s t ∧ SameMem s t ∧ t.kbd = k' ∧ t.out = s.out ∧ SameRun s t ∧ SameInputs s t

/-- 44_trap_and_illegal.md, service OUT (decisions D9, D11): the low byte of R0 goes to the console. What a read at a
device address gives is by D6 and D8 (log entry 2). -/
def Obligations.TrapOutWritesTheLowByte : Prop :=
  ∀ (s : State) (target : Word) (k : Keyboard), s.cfg.wf = true → ReadGives s (s.cfg.vecOut.setWidth 16) target k →
    ∃ t, exec (.trap s.cfg.vecOut) s = .next t ∧ TrapEntered target s t ∧ SameRegsBut [7] s t ∧ SameMem s t ∧
      t.kbd = k ∧ t.out = s.out ++ [(s.reg 0).extractLsb' 0 8] ∧ SameRun s t ∧ SameInputs s t

/-- 44_trap_and_illegal.md, service HALT (decision D9): the entry sequence, and then HALTED with the normal cause.
What a read at a device address gives is by D6 and D8 (log entry 2). -/
def Obligations.TrapHaltEndsTheRun : Prop :=
  ∀ (s : State) (target : Word) (k : Keyboard), s.cfg.wf = true → ReadGives s (s.cfg.vecHalt.setWidth 16) target k →
    ∃ t, exec (.trap s.cfg.vecHalt) s = .next t ∧ TrapEntered target s t ∧ t.runState = .halted ∧
      t.haltCause = .normal ∧ SameRegsBut [7] s t ∧ SameMem s t ∧ t.kbd = k ∧ t.out = s.out ∧ SameInputs s t

/-- 44_trap_and_illegal.md, service PUTS (decisions D9, D11): the low bytes of the Words from the address in R0 up to
the first zero Word go to the console in order, for a string in plain storage. What a read at a device address gives
is by D6 and D8 (log entry 2). -/
def Obligations.TrapPutsWritesTheString : Prop :=
  ∀ (s : State) (target : Word) (k : Keyboard) (chars : List Word), s.cfg.wf = true →
    ReadGives s (s.cfg.vecPuts.setWidth 16) target k →
    (∀ (j : Nat) (hj : j < chars.length), chars[j] ≠ 0x0000 ∧ Plain s (s.reg 0 + BitVec.ofNat 16 j) ∧
      s.mem.read (s.reg 0 + BitVec.ofNat 16 j).toNat = chars[j]) →
    Plain s (s.reg 0 + BitVec.ofNat 16 chars.length) →
    s.mem.read (s.reg 0 + BitVec.ofNat 16 chars.length).toNat = 0x0000 →
    ∃ t, exec (.trap s.cfg.vecPuts) s = .next t ∧ TrapEntered target s t ∧ SameRegsBut [7] s t ∧ SameMem s t ∧
      t.kbd = k ∧ t.out = s.out ++ chars.map (fun c => c.extractLsb' 0 8) ∧ SameRun s t ∧ SameInputs s t

/-- 44_trap_and_illegal.md, service READLINE (decisions D9, D12; log entry 14): a whole line, there or still to
arrive, shorter than the address space, goes to the buffer at the address in R0, one byte a Word, with a zero Word
after it; every other Word of memory is unchanged, and the line and its end are consumed. What a read at a device
address gives is by D6 and D8 (log entry 2). -/
def Obligations.TrapReadLineFillsTheBuffer : Prop :=
  ∀ (s : State) (target : Word) (bytes : List Byte) (k k' : Keyboard), s.cfg.wf = true →
    ReadGives s (s.cfg.vecReadLine.setWidth 16) target k → BytesGive k (bytes ++ [s.cfg.lineEnd]) k' →
    s.cfg.lineEnd ∉ bytes → bytes.length < 65536 →
    ∃ t, exec (.trap s.cfg.vecReadLine) s = .next t ∧ TrapEntered target s t ∧ SameRegsBut [7] s t ∧
      (∀ (j : Nat) (hj : j < bytes.length),
        t.mem.read (s.reg 0 + BitVec.ofNat 16 j).toNat = (bytes[j]).setWidth 16) ∧
      t.mem.read (s.reg 0 + BitVec.ofNat 16 bytes.length).toNat = 0x0000 ∧
      (∀ a : Nat, (∀ j : Nat, j ≤ bytes.length → a ≠ (s.reg 0 + BitVec.ofNat 16 j).toNat) →
        t.mem.read a = s.mem.read a) ∧
      t.kbd = k' ∧ t.out = s.out ∧ SameRun s t ∧ SameInputs s t

/-- 44_trap_and_illegal.md, service PUTS (decision D11): in EVERY state the service is the loop of the spec's text; the
model's bound on the number of reads (log entry 8) never cuts it short. -/
def Obligations.PutsIsTheUnboundedLoop : Prop :=
  ∀ (s : State) (a : Word), s.putsFrom a =
    match s.memRead a with
    | none => none
    | some (w, u) => if w = 0x0000 then some u else (u.writeByte (w.extractLsb' 0 8)).putsFrom (a + 1)

/-- 44_trap_and_illegal.md, service READLINE (decision D12): in every state the service is the loop of the spec's text. -/
def Obligations.ReadLineIsTheLoop : Prop :=
  ∀ (s : State) (a : Word), s.readLineTo a =
    match s.readByte with
    | none => none
    | some (b, u) =>
      if b = u.cfg.lineEnd then some (u.memWrite a 0x0000) else (u.memWrite a (b.setWidth 16)).readLineTo (a + 1)

/-- 40_cycle_and_units.md, holds (decision D19), for the services: with a table entry in plain storage GETC waits
exactly for want of a byte, there or to arrive, READLINE exactly for want of a line end, and OUT, HALT and a vector without a service never
wait. -/
def Obligations.TrapWaitsExactlyForMissingInput : Prop :=
  ∀ (s : State) (vector : BitVec 8), s.cfg.wf = true → Plain s (vector.setWidth 16) →
    (vector = s.cfg.vecGetc → (exec (.trap vector) s = .fault .consoleHold ↔ NoByte s.kbd)) ∧
    (vector = s.cfg.vecReadLine → (exec (.trap vector) s = .fault .consoleHold ↔
      s.cfg.lineEnd ∉ s.kbd.queue ∧ ∀ batch ∈ s.kbd.arrivals, s.cfg.lineEnd ∉ batch)) ∧
    (vector = s.cfg.vecOut ∨ vector = s.cfg.vecHalt ∨ vector ∉ s.cfg.vectors →
      ∃ t, exec (.trap vector) s = .next t)

/-- 44_trap_and_illegal.md, RTI (decision D16), and 60_exceptions.md, the decode error (decision D15): HALTED with the
illegal-instruction cause and nothing else changed, the incremented PC kept. -/
def Obligations.RtiIsTheDecodeError : Prop :=
  (∀ w : Word, w &&& 0xF000 = 0x8000 → decode w = .rti) ∧
  ∀ s : State, exec .rti s = .next { s with runState := .halted, haltCause := .illegalInstruction }

/-- 44_trap_and_illegal.md, RES (decisions D15 and D16, as RTI): the same effect as RTI's. -/
def Obligations.ResIsTheDecodeError : Prop :=
  (∀ w : Word, w &&& 0xF000 = 0xD000 → decode w = .res) ∧
  ∀ s : State, exec .res s = .next { s with runState := .halted, haltCause := .illegalInstruction }

/-! ### The step -/

/-- 40_cycle_and_units.md, the step and fetch (decision D8): where the fetch at the PC completes with a Word `w`, the
step is the execution of what `w` decodes to, in the state with IR written, the PC incremented and the byte consumed
that a fetch from the keyboard-data address takes; and if that execution waits, the step leaves the state the moves
left (log entry 5). What a read at a device address gives is by D6 and D8 (log entry 2). -/
def Obligations.StepRunsTheDecodedInstruction : Prop :=
  ∀ (s : State) (w : Word) (k : Keyboard) (i : Instr), Ready s → ReadGives s.land s.land.pc w k → decode w = i →
    (∀ t, exec i { s.land with ir := w, pc := s.land.pc + 1, kbd := k } = .next t → step s = .next t) ∧
    (exec i { s.land with ir := w, pc := s.land.pc + 1, kbd := k } = .fault .consoleHold → step s = .next s.land)

/-- 40_cycle_and_units.md, holds and fetch (decisions D8, D19): a fetch from the keyboard-data address with no byte
waits, and the PC is not incremented. -/
def Obligations.FetchWithoutAKeyWaits : Prop :=
  ∀ s : State, Ready s → ReadHolds s.land s.land.pc → step s = .next s.land

/-- 60_exceptions.md, the external stop request (decision D17): a requested stop halts before the fetch, whatever
stands at the PC, and changes nothing but the run state and the halt cause. -/
def Obligations.StopRequestHaltsBeforeTheFetch : Prop :=
  ∀ s : State, s.land.runState = .running → s.land.stopReq = true →
    step s = .next { s.land with runState := .halted, haltCause := .externalStop }

/-- 10_state.md, run state: HALTED is left only by a reset; until then a step changes no register, no flag, no memory,
no output, no cause. (That a step of a halted machine answers with the same state is the model's, log entry 6.) -/
def Obligations.HaltedIsAbsorbing : Prop :=
  ∀ s : State, s.runState = .halted → NoResetDue s →
    ∃ t, step s = .next t ∧ t.runState = .halted ∧ t.haltCause = s.haltCause ∧ t.regs = s.regs ∧ t.pc = s.pc ∧
      t.cond = s.cond ∧ t.ir = s.ir ∧ t.mem = s.mem ∧ t.out = s.out ∧ t.cfg = s.cfg

/-- 60_exceptions.md, what does not raise an exception: no state makes the machine fault or refuse. (Waiting and being
HALTED are next states in the model, log entries 5 and 6.) -/
def Obligations.EveryStepAnswersANextState : Prop := ∀ s : State, ∃ t, step s = .next t

/-- 10_state.md, run state: HALTED is entered in three ways only, each with its own cause. -/
def Obligations.HaltedIsEnteredInThreeWays : Prop :=
  ∀ s t : State, s.land.runState = .running → step s = .next t → t.runState = .halted →
    (s.land.stopReq = true ∧ t.haltCause = .externalStop) ∨
    (∃ u, s.land.fetch = some u ∧ (decode u.ir).legal = false ∧ t.haltCause = .illegalInstruction) ∨
    (∃ u, s.land.fetch = some u ∧ decode u.ir = .trap u.cfg.vecHalt ∧ t.haltCause = .normal)

/-! ### Whole-machine rules about every instruction -/

/-- 10_state.md, condition flag (decision D14 for TRAP): only ADD, AND, NOT, LD, LDI, LDR and LEA write COND. -/
def Obligations.OnlyListedInstructionsWriteTheFlag : Prop :=
  ∀ (i : Instr) (s t : State), exec i s = .next t → setsFlags i = false → t.cond = s.cond

/-- 10_state.md, general registers: an instruction writes no register but its destination, R7 for the links, and R0 for
the read-one-character service. -/
def Obligations.OnlyDestinationRegistersChange : Prop :=
  ∀ (i : Instr) (s t : State), exec i s = .next t → SameRegsBut (writesRegs s.cfg i) s t

/-- 10_state.md, memory: only the stores and the read-line service change memory. -/
def Obligations.OnlyStoresAndReadLineWriteMemory : Prop :=
  ∀ (i : Instr) (s t : State), exec i s = .next t → mayStore s.cfg i = false → t.mem = s.mem

/-- 10_state.md, program counter: only BR, JMP, JSR, JSRR and TRAP write the PC when they execute. -/
def Obligations.OnlyControlTransfersWriteThePc : Prop :=
  ∀ (i : Instr) (s t : State), exec i s = .next t → mayJump i = false → t.pc = s.pc

/-- 10_state.md, console state: an instruction takes bytes from the head of the input alone, what is there and what
arrives in its course taken together in order, and adds to the end of the output alone. -/
def Obligations.ConsoleIsAQueueAndATrace : Prop :=
  ∀ (i : Instr) (s t : State), exec i s = .next t →
    (∃ taken, s.kbd.queue ++ s.kbd.arrivals.flatten = taken ++ (t.kbd.queue ++ t.kbd.arrivals.flatten)) ∧
    (∃ n : Nat, t.kbd.arrivals = s.kbd.arrivals.drop n) ∧ (∃ added, t.out = s.out ++ added)

/-- 70_reset_and_hazards.md, the environment: no step changes a parameter but for the load origin, which only a reset
changes. -/
def Obligations.ParametersAreConstant : Prop :=
  ∀ s t : State, step s = .next t →
    t.cfg = { s.cfg with loadOrigin := t.cfg.loadOrigin } ∧ (NoResetDue s → t.cfg = s.cfg)

/-! ### Reset and invariants -/

/-- 10_state.md, reset values, under any parameters (the halt cause is decision D15; the empty console, the clear stop
input, the empty schedule and IR are the model's, log entries 9 and 10). -/
def Obligations.ResetLeavesTheListedValues : Prop :=
  (∀ c : Config, (∀ r : Reg, (State.powerOn c).reg r = 0x0000) ∧ (State.powerOn c).pc = c.loadOrigin ∧
    (State.powerOn c).cond = .zero ∧ (State.powerOn c).runState = .running ∧ (State.powerOn c).haltCause = .none ∧
    (∀ a : Nat, (State.powerOn c).mem.read a = 0x0000)) ∧
  State.reset = State.powerOn Config.default ∧ State.reset.pc = 0x3000

/-- 70_reset_and_hazards.md, reset: in any state, halted or not, a reset that is due leaves the values of reset with the
PC at the load origin, the memory zero but for the image, where the last Word written to an address stands. (What it
does to the console and the stop input is the model's, log entry 11; that it may come at the top of any step, log entry
22.) -/
def Obligations.ResetMoveStartsANewRun : Prop :=
  ∀ (s : State) (origin : Word) (image : List (Word × Word)) (rest : List (List EnvMove)),
    s.env = [.reset origin image] :: rest →
    (∀ r : Reg, s.land.reg r = 0x0000) ∧ s.land.pc = origin ∧ s.land.cond = .zero ∧ s.land.runState = .running ∧
    s.land.haltCause = .none ∧ s.land.cfg = { s.cfg with loadOrigin := origin } ∧ s.land.env = rest ∧
    s.land.kbd = { queue := [], arrivals := s.kbd.arrivals } ∧ s.land.out = [] ∧ s.land.stopReq = false ∧
    (∀ a : Word, (∀ cell ∈ image, cell.1 ≠ a) → s.land.mem.read a.toNat = 0x0000) ∧
    (∀ (before after : List (Word × Word)) (a v : Word), image = before ++ (a, v) :: after →
      (∀ cell ∈ after, cell.1 ≠ a) → s.land.mem.read a.toNat = v)

/-- The machine's invariant (`State.inv`): canonical memory (log entry 1), parameters that meet 00_scope.md's constraint,
and a halt cause that agrees with the run state (10_state.md). Every step keeps it, from every state that has it. -/
def Obligations.StepKeepsTheInvariant : Prop :=
  ∀ s t : State, s.inv = true → step s = .next t → t.inv = true

/-- The invariant holds after reset, under any parameters that meet the constraint. -/
def Obligations.ResetMeetsTheInvariant : Prop :=
  State.reset.inv = true ∧ ∀ c : Config, c.wf = true → (State.powerOn c).inv = true

/-- 20_memory.md, the cells under the device addresses (decision D7), and 10_state.md, instruction register and console
state: no program can observe those two cells, IR, or what it has output. Two states that differ only there go to two
states that differ only there. -/
def Obligations.HiddenStateIsNotObserved : Prop :=
  ∀ s s' t : State, Alike s s' → step s = .next t → ∃ t', step s' = .next t' ∧ Alike t t'

/-! ### Arrivals during an instruction -/

/-- 10_state.md, console state, and 20_memory.md, the keyboard registers: a byte that arrives between two polls of one
instruction is seen by the second and not by the first. With KBSR_IDLE equal to KBSR_ADDR, LDI through the status address
reads idle, goes to the status address again, and there reads ready. (The batches of arriving bytes are the model's, log
entry 7; the status Words are decision D6, log entry 2.) -/
def Obligations.ArrivalBetweenTwoPollsIsSeenByTheSecond : Prop :=
  ∀ (dr : Reg) (offset9 : BitVec 9) (s : State) (b : Byte) (batch : List Byte) (later : List (List Byte)),
    s.pc + offset9.signExtend 16 = s.cfg.kbsrAddr → s.cfg.kbsrIdle = s.cfg.kbsrAddr →
    s.kbd = { queue := [], arrivals := [] :: (b :: batch) :: later } →
    ∃ t, exec (.ldi dr offset9) s = .next t ∧
      WritesDest dr s.cfg.kbsrReady { s with kbd := { queue := b :: batch, arrivals := later } } t
end

