-- ==== Sys2Proof/Laws/Decoding.lean ====
section
/-! SUPPORT. The opcode map read and written (30_encoding.md R82), and the bits of a placed field. -/

namespace Sys2Proof

/-- R82 is one map: reading an opcode's bits gives the opcode. -/
@[simp] theorem Opcode.ofBits_bits (o : Opcode) : Opcode.ofBits o.bits = o := by
  cases o <;> rfl

@[simp] theorem Opcode.bits_ofBits (b : BitVec 4) : (Opcode.ofBits b).bits = b := by
  revert b
  decide

theorem Opcode.ofBits_eq_iff (b : BitVec 4) (o : Opcode) : Opcode.ofBits b = o ↔ b = o.bits := by
  constructor
  · rintro rfl
    simp
  · rintro rfl
    simp

theorem Opcode.bits_inj {o o' : Opcode} (h : o.bits = o'.bits) : o = o' := by
  rw [← Opcode.ofBits_bits o, h, Opcode.ofBits_bits]

/-- Bit `i` of a Word is bit `i - lo` of the field placed at `lo`. -/
theorem getLsbD_place {n : Nat} (v : BitVec n) (lo i : Nat) :
    (place v lo).getLsbD i = (decide (i < 16) && (!decide (i < lo) && v.getLsbD (i - lo))) := by
  simp only [place, BitVec.getLsbD_shiftLeft, BitVec.getLsbD_setWidth]
  by_cases h : i < 16
  · have : i - lo < 16 := by omega
    simp [h, this]
  · simp [h]

theorem getElem_place {n : Nat} (v : BitVec n) (lo i : Nat) (hi : i < 16) :
    (place v lo)[i] = (!decide (i < lo) && v.getLsbD (i - lo)) := by
  have h := getLsbD_place v lo i
  rw [BitVec.getLsbD_eq_getElem hi] at h
  simpa [hi] using h

/-- A placed field is read back where it was placed. -/
theorem extract_place_self {n lo : Nat} (v : BitVec n) (h : lo + n ≤ 16) : (place v lo).extractLsb' lo n = v := by
  apply BitVec.eq_of_getLsbD_eq
  intro i hi
  have h16 : lo + i < 16 := by omega
  simp [getElem_place, hi, h16]

/-- Away from where it was placed, a field leaves zeros. -/
theorem extract_place_disjoint {n lo start len : Nat} (v : BitVec n) (h : lo + n ≤ start ∨ start + len ≤ lo) :
    (place v lo).extractLsb' start len = 0#len := by
  apply BitVec.eq_of_getLsbD_eq
  intro i hi
  simp only [BitVec.getLsbD_extractLsb', getLsbD_place, hi, decide_true, Bool.true_and, BitVec.getLsbD_zero,
    Bool.and_eq_false_iff, Bool.not_eq_false', decide_eq_true_eq]
  rcases h with h | h
  · exact .inr (.inr (BitVec.getLsbD_of_ge v _ (by omega)))
  · exact .inr (.inl (by omega))

@[simp] theorem getLsbD_bit (b : Bool) (i : Nat) : (bit b).getLsbD i = (decide (i = 0) && b) := by
  cases b <;> cases i <;> simp [bit]

@[simp] theorem getElem_bit_zero (b : Bool) : (bit b)[0] = b := by
  cases b <;> rfl

/-- The decoded form carries the opcode of the Word (R81, R82). -/
theorem opcode_decode (w : Word) : (decode w).opcode = Opcode.ofBits (Field.opcode w) := by
  unfold decode
  cases Opcode.ofBits (Field.opcode w) <;> cases Field.immMode w <;> cases Field.jsrLong w <;> rfl

end Sys2Proof
end

