-- ==== Sys2Proof/Laws/State.lean ====
section
/-! SUPPORT. What each named update of the state does to each field, so that no later proof unfolds a record update. -/

namespace Sys2Proof.Machine

variable (s : State)

/-! ### `State.setReg` -/

@[simp] theorem State.regs_setReg (r : Reg) (v : Word) : (s.setReg r v).regs = s.regs.set r.toNat v r.isLt := rfl
@[simp] theorem State.pc_setReg (r : Reg) (v : Word) : (s.setReg r v).pc = s.pc := rfl
@[simp] theorem State.cond_setReg (r : Reg) (v : Word) : (s.setReg r v).cond = s.cond := rfl
@[simp] theorem State.ir_setReg (r : Reg) (v : Word) : (s.setReg r v).ir = s.ir := rfl
@[simp] theorem State.runState_setReg (r : Reg) (v : Word) : (s.setReg r v).runState = s.runState := rfl
@[simp] theorem State.haltCause_setReg (r : Reg) (v : Word) : (s.setReg r v).haltCause = s.haltCause := rfl
@[simp] theorem State.mem_setReg (r : Reg) (v : Word) : (s.setReg r v).mem = s.mem := rfl
@[simp] theorem State.kbd_setReg (r : Reg) (v : Word) : (s.setReg r v).kbd = s.kbd := rfl
@[simp] theorem State.out_setReg (r : Reg) (v : Word) : (s.setReg r v).out = s.out := rfl
@[simp] theorem State.stopReq_setReg (r : Reg) (v : Word) : (s.setReg r v).stopReq = s.stopReq := rfl
@[simp] theorem State.env_setReg (r : Reg) (v : Word) : (s.setReg r v).env = s.env := rfl
@[simp] theorem State.cfg_setReg (r : Reg) (v : Word) : (s.setReg r v).cfg = s.cfg := rfl

/-! ### `State.setPc` -/

@[simp] theorem State.regs_setPc (v : Word) : (s.setPc v).regs = s.regs := rfl
@[simp] theorem State.pc_setPc (v : Word) : (s.setPc v).pc = v := rfl
@[simp] theorem State.cond_setPc (v : Word) : (s.setPc v).cond = s.cond := rfl
@[simp] theorem State.ir_setPc (v : Word) : (s.setPc v).ir = s.ir := rfl
@[simp] theorem State.runState_setPc (v : Word) : (s.setPc v).runState = s.runState := rfl
@[simp] theorem State.haltCause_setPc (v : Word) : (s.setPc v).haltCause = s.haltCause := rfl
@[simp] theorem State.mem_setPc (v : Word) : (s.setPc v).mem = s.mem := rfl
@[simp] theorem State.kbd_setPc (v : Word) : (s.setPc v).kbd = s.kbd := rfl
@[simp] theorem State.out_setPc (v : Word) : (s.setPc v).out = s.out := rfl
@[simp] theorem State.stopReq_setPc (v : Word) : (s.setPc v).stopReq = s.stopReq := rfl
@[simp] theorem State.env_setPc (v : Word) : (s.setPc v).env = s.env := rfl
@[simp] theorem State.cfg_setPc (v : Word) : (s.setPc v).cfg = s.cfg := rfl

/-! ### `State.setCond` -/

@[simp] theorem State.regs_setCond (c : Cond) : (s.setCond c).regs = s.regs := rfl
@[simp] theorem State.pc_setCond (c : Cond) : (s.setCond c).pc = s.pc := rfl
@[simp] theorem State.cond_setCond (c : Cond) : (s.setCond c).cond = c := rfl
@[simp] theorem State.ir_setCond (c : Cond) : (s.setCond c).ir = s.ir := rfl
@[simp] theorem State.runState_setCond (c : Cond) : (s.setCond c).runState = s.runState := rfl
@[simp] theorem State.haltCause_setCond (c : Cond) : (s.setCond c).haltCause = s.haltCause := rfl
@[simp] theorem State.mem_setCond (c : Cond) : (s.setCond c).mem = s.mem := rfl
@[simp] theorem State.kbd_setCond (c : Cond) : (s.setCond c).kbd = s.kbd := rfl
@[simp] theorem State.out_setCond (c : Cond) : (s.setCond c).out = s.out := rfl
@[simp] theorem State.stopReq_setCond (c : Cond) : (s.setCond c).stopReq = s.stopReq := rfl
@[simp] theorem State.env_setCond (c : Cond) : (s.setCond c).env = s.env := rfl
@[simp] theorem State.cfg_setCond (c : Cond) : (s.setCond c).cfg = s.cfg := rfl

/-! ### `State.setIr` -/

@[simp] theorem State.regs_setIr (w : Word) : (s.setIr w).regs = s.regs := rfl
@[simp] theorem State.pc_setIr (w : Word) : (s.setIr w).pc = s.pc := rfl
@[simp] theorem State.cond_setIr (w : Word) : (s.setIr w).cond = s.cond := rfl
@[simp] theorem State.ir_setIr (w : Word) : (s.setIr w).ir = w := rfl
@[simp] theorem State.runState_setIr (w : Word) : (s.setIr w).runState = s.runState := rfl
@[simp] theorem State.haltCause_setIr (w : Word) : (s.setIr w).haltCause = s.haltCause := rfl
@[simp] theorem State.mem_setIr (w : Word) : (s.setIr w).mem = s.mem := rfl
@[simp] theorem State.kbd_setIr (w : Word) : (s.setIr w).kbd = s.kbd := rfl
@[simp] theorem State.out_setIr (w : Word) : (s.setIr w).out = s.out := rfl
@[simp] theorem State.stopReq_setIr (w : Word) : (s.setIr w).stopReq = s.stopReq := rfl
@[simp] theorem State.env_setIr (w : Word) : (s.setIr w).env = s.env := rfl
@[simp] theorem State.cfg_setIr (w : Word) : (s.setIr w).cfg = s.cfg := rfl

/-! ### `State.setKbd` -/

@[simp] theorem State.regs_setKbd (k : Keyboard) : (s.setKbd k).regs = s.regs := rfl
@[simp] theorem State.pc_setKbd (k : Keyboard) : (s.setKbd k).pc = s.pc := rfl
@[simp] theorem State.cond_setKbd (k : Keyboard) : (s.setKbd k).cond = s.cond := rfl
@[simp] theorem State.ir_setKbd (k : Keyboard) : (s.setKbd k).ir = s.ir := rfl
@[simp] theorem State.runState_setKbd (k : Keyboard) : (s.setKbd k).runState = s.runState := rfl
@[simp] theorem State.haltCause_setKbd (k : Keyboard) : (s.setKbd k).haltCause = s.haltCause := rfl
@[simp] theorem State.mem_setKbd (k : Keyboard) : (s.setKbd k).mem = s.mem := rfl
@[simp] theorem State.kbd_setKbd (k : Keyboard) : (s.setKbd k).kbd = k := rfl
@[simp] theorem State.out_setKbd (k : Keyboard) : (s.setKbd k).out = s.out := rfl
@[simp] theorem State.stopReq_setKbd (k : Keyboard) : (s.setKbd k).stopReq = s.stopReq := rfl
@[simp] theorem State.env_setKbd (k : Keyboard) : (s.setKbd k).env = s.env := rfl
@[simp] theorem State.cfg_setKbd (k : Keyboard) : (s.setKbd k).cfg = s.cfg := rfl

/-! ### `State.memWrite` -/

@[simp] theorem State.regs_memWrite (a v : Word) : (s.memWrite a v).regs = s.regs := rfl
@[simp] theorem State.pc_memWrite (a v : Word) : (s.memWrite a v).pc = s.pc := rfl
@[simp] theorem State.cond_memWrite (a v : Word) : (s.memWrite a v).cond = s.cond := rfl
@[simp] theorem State.ir_memWrite (a v : Word) : (s.memWrite a v).ir = s.ir := rfl
@[simp] theorem State.runState_memWrite (a v : Word) : (s.memWrite a v).runState = s.runState := rfl
@[simp] theorem State.haltCause_memWrite (a v : Word) : (s.memWrite a v).haltCause = s.haltCause := rfl
@[simp] theorem State.mem_memWrite (a v : Word) : (s.memWrite a v).mem = s.mem.write a.toNat v := rfl
@[simp] theorem State.kbd_memWrite (a v : Word) : (s.memWrite a v).kbd = s.kbd := rfl
@[simp] theorem State.out_memWrite (a v : Word) : (s.memWrite a v).out = s.out := rfl
@[simp] theorem State.stopReq_memWrite (a v : Word) : (s.memWrite a v).stopReq = s.stopReq := rfl
@[simp] theorem State.env_memWrite (a v : Word) : (s.memWrite a v).env = s.env := rfl
@[simp] theorem State.cfg_memWrite (a v : Word) : (s.memWrite a v).cfg = s.cfg := rfl

/-! ### `State.writeByte` -/

@[simp] theorem State.regs_writeByte (b : Byte) : (s.writeByte b).regs = s.regs := rfl
@[simp] theorem State.pc_writeByte (b : Byte) : (s.writeByte b).pc = s.pc := rfl
@[simp] theorem State.cond_writeByte (b : Byte) : (s.writeByte b).cond = s.cond := rfl
@[simp] theorem State.ir_writeByte (b : Byte) : (s.writeByte b).ir = s.ir := rfl
@[simp] theorem State.runState_writeByte (b : Byte) : (s.writeByte b).runState = s.runState := rfl
@[simp] theorem State.haltCause_writeByte (b : Byte) : (s.writeByte b).haltCause = s.haltCause := rfl
@[simp] theorem State.mem_writeByte (b : Byte) : (s.writeByte b).mem = s.mem := rfl
@[simp] theorem State.kbd_writeByte (b : Byte) : (s.writeByte b).kbd = s.kbd := rfl
@[simp] theorem State.out_writeByte (b : Byte) : (s.writeByte b).out = s.out ++ [b] := rfl
@[simp] theorem State.stopReq_writeByte (b : Byte) : (s.writeByte b).stopReq = s.stopReq := rfl
@[simp] theorem State.env_writeByte (b : Byte) : (s.writeByte b).env = s.env := rfl
@[simp] theorem State.cfg_writeByte (b : Byte) : (s.writeByte b).cfg = s.cfg := rfl

/-! ### `State.halt` -/

@[simp] theorem State.regs_halt (c : HaltCause) : (s.halt c).regs = s.regs := rfl
@[simp] theorem State.pc_halt (c : HaltCause) : (s.halt c).pc = s.pc := rfl
@[simp] theorem State.cond_halt (c : HaltCause) : (s.halt c).cond = s.cond := rfl
@[simp] theorem State.ir_halt (c : HaltCause) : (s.halt c).ir = s.ir := rfl
@[simp] theorem State.runState_halt (c : HaltCause) : (s.halt c).runState = .halted := rfl
@[simp] theorem State.haltCause_halt (c : HaltCause) : (s.halt c).haltCause = c := rfl
@[simp] theorem State.mem_halt (c : HaltCause) : (s.halt c).mem = s.mem := rfl
@[simp] theorem State.kbd_halt (c : HaltCause) : (s.halt c).kbd = s.kbd := rfl
@[simp] theorem State.out_halt (c : HaltCause) : (s.halt c).out = s.out := rfl
@[simp] theorem State.stopReq_halt (c : HaltCause) : (s.halt c).stopReq = s.stopReq := rfl
@[simp] theorem State.env_halt (c : HaltCause) : (s.halt c).env = s.env := rfl
@[simp] theorem State.cfg_halt (c : HaltCause) : (s.halt c).cfg = s.cfg := rfl

/-! ### `State.writeDest` -/

@[simp] theorem State.regs_writeDest (r : Reg) (v : Word) : (s.writeDest r v).regs = s.regs.set r.toNat v r.isLt := rfl
@[simp] theorem State.pc_writeDest (r : Reg) (v : Word) : (s.writeDest r v).pc = s.pc := rfl
@[simp] theorem State.cond_writeDest (r : Reg) (v : Word) : (s.writeDest r v).cond = condOf v := rfl
@[simp] theorem State.ir_writeDest (r : Reg) (v : Word) : (s.writeDest r v).ir = s.ir := rfl
@[simp] theorem State.runState_writeDest (r : Reg) (v : Word) : (s.writeDest r v).runState = s.runState := rfl
@[simp] theorem State.haltCause_writeDest (r : Reg) (v : Word) : (s.writeDest r v).haltCause = s.haltCause := rfl
@[simp] theorem State.mem_writeDest (r : Reg) (v : Word) : (s.writeDest r v).mem = s.mem := rfl
@[simp] theorem State.kbd_writeDest (r : Reg) (v : Word) : (s.writeDest r v).kbd = s.kbd := rfl
@[simp] theorem State.out_writeDest (r : Reg) (v : Word) : (s.writeDest r v).out = s.out := rfl
@[simp] theorem State.stopReq_writeDest (r : Reg) (v : Word) : (s.writeDest r v).stopReq = s.stopReq := rfl
@[simp] theorem State.env_writeDest (r : Reg) (v : Word) : (s.writeDest r v).env = s.env := rfl
@[simp] theorem State.cfg_writeDest (r : Reg) (v : Word) : (s.writeDest r v).cfg = s.cfg := rfl

/-! ### `State.link` -/

@[simp] theorem State.regs_link : s.link.regs = s.regs.set (7 : Reg).toNat s.pc (7 : Reg).isLt := rfl
@[simp] theorem State.pc_link : s.link.pc = s.pc := rfl
@[simp] theorem State.cond_link : s.link.cond = s.cond := rfl
@[simp] theorem State.ir_link : s.link.ir = s.ir := rfl
@[simp] theorem State.runState_link : s.link.runState = s.runState := rfl
@[simp] theorem State.haltCause_link : s.link.haltCause = s.haltCause := rfl
@[simp] theorem State.mem_link : s.link.mem = s.mem := rfl
@[simp] theorem State.kbd_link : s.link.kbd = s.kbd := rfl
@[simp] theorem State.out_link : s.link.out = s.out := rfl
@[simp] theorem State.stopReq_link : s.link.stopReq = s.stopReq := rfl
@[simp] theorem State.env_link : s.link.env = s.env := rfl
@[simp] theorem State.cfg_link : s.link.cfg = s.cfg := rfl

/-! ### `State.jumpReg` -/

@[simp] theorem State.regs_jumpReg (r : Reg) : (s.jumpReg r).regs = s.regs := rfl
@[simp] theorem State.pc_jumpReg (r : Reg) : (s.jumpReg r).pc = s.reg r := rfl
@[simp] theorem State.cond_jumpReg (r : Reg) : (s.jumpReg r).cond = s.cond := rfl
@[simp] theorem State.ir_jumpReg (r : Reg) : (s.jumpReg r).ir = s.ir := rfl
@[simp] theorem State.runState_jumpReg (r : Reg) : (s.jumpReg r).runState = s.runState := rfl
@[simp] theorem State.haltCause_jumpReg (r : Reg) : (s.jumpReg r).haltCause = s.haltCause := rfl
@[simp] theorem State.mem_jumpReg (r : Reg) : (s.jumpReg r).mem = s.mem := rfl
@[simp] theorem State.kbd_jumpReg (r : Reg) : (s.jumpReg r).kbd = s.kbd := rfl
@[simp] theorem State.out_jumpReg (r : Reg) : (s.jumpReg r).out = s.out := rfl
@[simp] theorem State.stopReq_jumpReg (r : Reg) : (s.jumpReg r).stopReq = s.stopReq := rfl
@[simp] theorem State.env_jumpReg (r : Reg) : (s.jumpReg r).env = s.env := rfl
@[simp] theorem State.cfg_jumpReg (r : Reg) : (s.jumpReg r).cfg = s.cfg := rfl

end Sys2Proof.Machine
end

