-- ==== Sys2Proof/Laws/Memory.lean ====
section
/-! SUPPORT. The laws of the memory array: a read after a write, and that every operation keeps the canonical form. -/

namespace Sys2Proof.Machine

/-! ### Reading after a change: these hold of every list, canonical or not -/

@[simp] theorem Memory.read_nil (a : Nat) : Memory.read [] a = Memory.unlisted := rfl

theorem Memory.read_cons (k : Nat) (v : Word) (m : Memory) (a : Nat) :
    Memory.read ((k, v) :: m) a = if k = a then v else Memory.read m a := rfl

theorem Memory.read_erase (m : Memory) (a b : Nat) :
    (m.erase a).read b = if b = a then Memory.unlisted else m.read b := by
  induction m with
  | nil => simp [Memory.erase]
  | cons c m ih =>
    obtain ⟨k, v⟩ := c
    simp only [Memory.erase]
    split <;> simp only [Memory.read_cons, ih]
    · subst_vars
      by_cases h : b = k <;> simp [h, eq_comm]
    · by_cases h : k = b
      · subst h
        simp [‹¬k = a›]
      · simp [h]

theorem Memory.read_insert (m : Memory) (a b : Nat) (v : Word) :
    (m.insert a v).read b = if b = a then v else m.read b := by
  induction m with
  | nil => simp [Memory.insert, Memory.read_cons, eq_comm]
  | cons c m ih =>
    obtain ⟨k, w⟩ := c
    simp only [Memory.insert]
    split <;> simp only [Memory.read_cons, ih]
    · by_cases h : k = b
      · subst h
        simp [Nat.ne_of_lt ‹k < a›]
      · simp [h]
    · by_cases h : b = a
      · simp [h]
      · simp [h, Ne.symm h]

/-- The Word last written is read back, and no other address changes (R52, R63). -/
theorem Memory.read_write (m : Memory) (a b : Nat) (v : Word) :
    (m.write a v).read b = if b = a then v else m.read b := by
  unfold Memory.write
  split
  · subst_vars
    exact Memory.read_erase m a b
  · rw [Memory.read_insert, Memory.read_erase]
    by_cases h : b = a <;> simp [h]

@[simp] theorem Memory.read_write_self (m : Memory) (a : Nat) (v : Word) : (m.write a v).read a = v := by
  simp [Memory.read_write]

theorem Memory.read_write_of_ne (m : Memory) {a b : Nat} (v : Word) (h : b ≠ a) : (m.write a v).read b = m.read b := by
  simp [Memory.read_write, h]

/-! ### The canonical form -/

theorem Memory.wfFrom_cons_iff {lo k : Nat} {v : Word} {m : Memory} :
    Memory.wfFrom lo ((k, v) :: m) = true ↔
      lo ≤ k ∧ k < memWords ∧ v ≠ Memory.unlisted ∧ Memory.wfFrom (k + 1) m = true := by
  simp [Memory.wfFrom, and_assoc]

theorem Memory.wfFrom_mono {lo lo' : Nat} {m : Memory} (h : lo' ≤ lo) (hm : Memory.wfFrom lo m = true) :
    Memory.wfFrom lo' m = true := by
  cases m with
  | nil => rfl
  | cons c m =>
    obtain ⟨k, v⟩ := c
    rw [Memory.wfFrom_cons_iff] at hm ⊢
    exact ⟨h.trans hm.1, hm.2⟩

/-- Below the first address a canonical list may hold, everything is unlisted. -/
theorem Memory.read_of_lt_wfFrom {lo a : Nat} {m : Memory} (hm : Memory.wfFrom lo m = true) (h : a < lo) :
    m.read a = Memory.unlisted := by
  induction m generalizing lo with
  | nil => rfl
  | cons c m ih =>
    obtain ⟨k, v⟩ := c
    rw [Memory.wfFrom_cons_iff] at hm
    have hk : a < k := Nat.lt_of_lt_of_le h hm.1
    rw [Memory.read_cons, if_neg (Nat.ne_of_gt hk), ih hm.2.2.2 (Nat.lt_succ_of_lt hk)]

theorem Memory.wfFrom_erase {lo : Nat} {m : Memory} (a : Nat) (hm : Memory.wfFrom lo m = true) :
    Memory.wfFrom lo (m.erase a) = true := by
  induction m generalizing lo with
  | nil => rfl
  | cons c m ih =>
    obtain ⟨k, v⟩ := c
    rw [Memory.wfFrom_cons_iff] at hm
    simp only [Memory.erase]
    split
    · exact ih (Memory.wfFrom_mono (Nat.le_succ_of_le hm.1) hm.2.2.2)
    · rw [Memory.wfFrom_cons_iff]
      exact ⟨hm.1, hm.2.1, hm.2.2.1, ih hm.2.2.2⟩

/-- Insertion of an address that is not listed keeps the form. -/
theorem Memory.wfFrom_insert {lo a : Nat} {m : Memory} {v : Word} (hlo : lo ≤ a) (ha : a < memWords)
    (hv : v ≠ Memory.unlisted) (hm : Memory.wfFrom lo m = true) (hr : m.read a = Memory.unlisted) :
    Memory.wfFrom lo (m.insert a v) = true := by
  induction m generalizing lo with
  | nil => simp [Memory.insert, Memory.wfFrom, hlo, ha, hv]
  | cons c m ih =>
    obtain ⟨k, w⟩ := c
    rw [Memory.wfFrom_cons_iff] at hm
    have hka : k ≠ a := by
      rintro rfl
      exact hm.2.2.1 (by simpa [Memory.read_cons] using hr)
    rw [Memory.read_cons, if_neg hka] at hr
    simp only [Memory.insert]
    split
    · rw [Memory.wfFrom_cons_iff]
      exact ⟨hm.1, hm.2.1, hm.2.2.1, ih ‹k < a› hm.2.2.2 hr⟩
    · rw [Memory.wfFrom_cons_iff, Memory.wfFrom_cons_iff]
      exact ⟨hlo, ha, hv, by omega, hm.2.1, hm.2.2.1, hm.2.2.2⟩

/-- A store inside the address space keeps the canonical form. -/
theorem Memory.wf_write {m : Memory} {a : Nat} (v : Word) (hm : m.wf = true) (ha : a < memWords) :
    (m.write a v).wf = true := by
  unfold Memory.write Memory.wf
  split
  · exact Memory.wfFrom_erase a hm
  · exact Memory.wfFrom_insert (Nat.zero_le a) ha ‹_› (Memory.wfFrom_erase a hm) (by simp [Memory.read_erase])

theorem word_lt_memWords (a : Word) : a.toNat < memWords := a.isLt

theorem State.wf_memWrite {s : State} (a v : Word) (h : s.mem.wf = true) : (s.memWrite a v).mem.wf = true :=
  Memory.wf_write v h (word_lt_memWords a)

theorem Memory.wf_foldl_write {m : Memory} (image : List (Word × Word)) (h : m.wf = true) :
    (image.foldl (fun m cell => m.write cell.1.toNat cell.2) m).wf = true := by
  induction image generalizing m with
  | nil => exact h
  | cons c rest ih => exact ih (Memory.wf_write _ h (word_lt_memWords _))

/-- A loaded memory is canonical. -/
theorem Memory.wf_load (image : List (Word × Word)) : (Memory.load image).wf = true :=
  Memory.wf_foldl_write image rfl

/-- The empty memory, which is the memory after reset, is canonical. -/
theorem Memory.wf_nil : Memory.wf [] = true := rfl

end Sys2Proof.Machine
end

