-- ==== Sys2Proof/Laws/Registers.lean ====
section
/-! SUPPORT. Reading a register after each update (10_state.md R20, 40_cycle_and_units.md R120), and the flag rule. -/

namespace Sys2Proof.Machine

theorem State.reg_eq_of_regs {s t : State} (h : t.regs = s.regs) (r : Reg) : t.reg r = s.reg r := by
  simp only [State.reg, h]

/-- R20: a write of a register is read back, and no other register changes. -/
theorem State.reg_setReg (s : State) (d r : Reg) (v : Word) :
    (s.setReg d v).reg r = if r = d then v else s.reg r := by
  simp [State.reg, Vector.getElem_set, BitVec.toNat_inj, eq_comm]

@[simp] theorem State.reg_setReg_self (s : State) (d : Reg) (v : Word) : (s.setReg d v).reg d = v := by
  simp [State.reg_setReg]

theorem State.reg_setReg_of_ne (s : State) {d r : Reg} (v : Word) (h : r ≠ d) : (s.setReg d v).reg r = s.reg r := by
  simp [State.reg_setReg, h]

theorem State.reg_writeDest (s : State) (d r : Reg) (v : Word) :
    (s.writeDest d v).reg r = if r = d then v else s.reg r := State.reg_setReg s d r v

theorem State.reg_link (s : State) (r : Reg) : s.link.reg r = if r = 7 then s.pc else s.reg r :=
  State.reg_setReg s 7 r s.pc

section
variable (s : State) (r : Reg)
@[simp] theorem State.reg_setPc (v : Word) : (s.setPc v).reg r = s.reg r := rfl
@[simp] theorem State.reg_setCond (c : Cond) : (s.setCond c).reg r = s.reg r := rfl
@[simp] theorem State.reg_setIr (w : Word) : (s.setIr w).reg r = s.reg r := rfl
@[simp] theorem State.reg_setKbd (k : Keyboard) : (s.setKbd k).reg r = s.reg r := rfl
@[simp] theorem State.reg_memWrite (a v : Word) : (s.memWrite a v).reg r = s.reg r := rfl
@[simp] theorem State.reg_writeByte (b : Byte) : (s.writeByte b).reg r = s.reg r := rfl
@[simp] theorem State.reg_halt (c : HaltCause) : (s.halt c).reg r = s.reg r := rfl
@[simp] theorem State.reg_jumpReg (b : Reg) : (s.jumpReg b).reg r = s.reg r := rfl
end

/-- After reset every register reads as zero (R35). -/
theorem State.reg_powerOn (c : Config) (r : Reg) : (State.powerOn c).reg r = 0x0000 := by
  simp [State.reg, State.powerOn]

/-! ### The flag rule (R26), one value at a time -/

theorem condOf_eq_zero_iff (v : Word) : condOf v = .zero ↔ v = 0x0000 := by
  unfold condOf
  split
  · simp_all
  · split <;> simp_all

theorem condOf_eq_negative_iff (v : Word) : condOf v = .negative ↔ v.getLsbD 15 = true := by
  unfold condOf
  split
  · subst_vars
    decide
  · split <;> simp_all

theorem condOf_eq_positive_iff (v : Word) : condOf v = .positive ↔ v ≠ 0x0000 ∧ v.getLsbD 15 = false := by
  unfold condOf
  split
  · simp_all
  · split <;> simp_all

end Sys2Proof.Machine
end

