-- ==== Sys2Proof/Laws/Ops.lean ====
section
/-! SUPPORT. For each shared operation that may hold, everything it can do, said once: callers cite these and do not
unfold the operation. -/

namespace Sys2Proof.Machine

/-! ### The console's input (10_state.md R33, 20_memory.md R70) -/

/-- What a poll lets arrive. -/
theorem Keyboard.hear_eq (k : Keyboard) :
    k.hear = { queue := k.queue ++ k.arrivals.headD [], arrivals := k.arrivals.tail } := by
  obtain ⟨queue, arrivals⟩ := k
  cases arrivals <;> simp [Keyboard.hear]

/-- An arrival neither loses nor reorders a byte. -/
@[simp] theorem Keyboard.pending_hear (k : Keyboard) : k.hear.pending = k.pending := by
  obtain ⟨queue, arrivals⟩ := k
  cases arrivals <;> simp [Keyboard.hear, Keyboard.pending]

@[simp] theorem Keyboard.await_cons (b : Byte) (queue : List Byte) (arrivals : List (List Byte)) :
    Keyboard.await (b :: queue) arrivals = some (b, { queue := queue, arrivals := arrivals }) := by
  cases arrivals <;> rfl

@[simp] theorem Keyboard.await_nil_nil : Keyboard.await [] [] = none := rfl

@[simp] theorem Keyboard.await_nil_cons (batch : List Byte) (later : List (List Byte)) :
    Keyboard.await [] (batch :: later) = Keyboard.await batch later := rfl

/-- A byte read is the first of those that are there or to arrive, and the others stay in order. -/
theorem Keyboard.pending_of_await {queue : List Byte} {arrivals : List (List Byte)} {b : Byte} {k : Keyboard}
    (h : Keyboard.await queue arrivals = some (b, k)) : queue ++ arrivals.flatten = b :: k.pending := by
  induction arrivals generalizing queue with
  | nil =>
    cases queue with
    | nil => cases h
    | cons c queue => cases h; rfl
  | cons batch later ih =>
    cases queue with
    | nil => simpa using ih h
    | cons c queue => cases h; rfl

/-- A read never waits while a byte is there or to arrive. -/
theorem Keyboard.await_eq_none_iff {queue : List Byte} {arrivals : List (List Byte)} :
    Keyboard.await queue arrivals = none ↔ queue ++ arrivals.flatten = [] := by
  induction arrivals generalizing queue with
  | nil => cases queue <;> simp
  | cons batch later ih =>
    cases queue with
    | nil => simpa using ih
    | cons c queue => simp

/-- A console byte is read exactly when the console gives one. -/
theorem State.readByte_eq_some_iff {s t : State} {b : Byte} :
    s.readByte = some (b, t) ↔ Keyboard.await s.kbd.queue s.kbd.arrivals = some (b, t.kbd) ∧ t = s.setKbd t.kbd := by
  unfold State.readByte
  cases Keyboard.await s.kbd.queue s.kbd.arrivals with
  | none => simp
  | some p =>
    obtain ⟨c, k⟩ := p
    constructor
    · rintro h
      obtain ⟨rfl, rfl⟩ := Prod.mk.inj (Option.some.inj h)
      exact ⟨rfl, rfl⟩
    · rintro ⟨h, ht⟩
      obtain ⟨rfl, rfl⟩ := Prod.mk.inj (Option.some.inj h)
      exact congrArg (fun u => some (c, u)) ht.symm

theorem State.readByte_eq_none_iff {s : State} : s.readByte = none ↔ s.kbd.pending = [] := by
  rw [Keyboard.pending, ← Keyboard.await_eq_none_iff]
  unfold State.readByte
  cases Keyboard.await s.kbd.queue s.kbd.arrivals <;> simp

theorem State.kbsrRead_eq (s : State) :
    s.kbsrRead = (if s.kbd.hear.queue = [] then s.cfg.kbsrIdle else s.cfg.kbsrReady, s.setKbd s.kbd.hear) := by
  unfold State.kbsrRead State.keyAvailable
  cases s.kbd.hear.queue <;> simp

/-! ### Reading memory (20_memory.md R51, R53, R54) -/

/-- The three ways a read completes; the state changes only in the console's input. -/
theorem State.memRead_cases {s t : State} {a v : Word} (h : s.memRead a = some (v, t)) :
    (a = s.cfg.kbsrAddr ∧ v = (if s.kbd.hear.queue = [] then s.cfg.kbsrIdle else s.cfg.kbsrReady) ∧
      t = s.setKbd s.kbd.hear) ∨
    (a ≠ s.cfg.kbsrAddr ∧ a = s.cfg.kbdrAddr ∧
      ∃ b k, Keyboard.await s.kbd.queue s.kbd.arrivals = some (b, k) ∧ v = zext b ∧ t = s.setKbd k) ∨
    (a ≠ s.cfg.kbsrAddr ∧ a ≠ s.cfg.kbdrAddr ∧ v = s.mem.read a.toNat ∧ t = s) := by
  unfold State.memRead at h
  split at h
  · rw [State.kbsrRead_eq] at h
    obtain ⟨rfl, rfl⟩ := Prod.mk.inj (Option.some.inj h)
    exact .inl ⟨‹_›, rfl, rfl⟩
  · split at h
    · unfold State.kbdrRead at h
      split at h
      · cases h
      · rename_i b u hb
        obtain ⟨rfl, rfl⟩ := Prod.mk.inj (Option.some.inj h)
        obtain ⟨hk, hu⟩ := State.readByte_eq_some_iff.mp hb
        exact .inr (.inl ⟨‹_›, ‹_›, b, _, hk, rfl, hu⟩)
    · obtain ⟨rfl, rfl⟩ := Prod.mk.inj (Option.some.inj h)
      exact .inr (.inr ⟨‹_›, ‹_›, rfl, rfl⟩)

/-- A read holds exactly at the keyboard-data address with no byte there or to arrive. -/
theorem State.memRead_eq_none_iff {s : State} {a : Word} :
    s.memRead a = none ↔ a ≠ s.cfg.kbsrAddr ∧ a = s.cfg.kbdrAddr ∧ s.kbd.pending = [] := by
  unfold State.memRead State.kbdrRead
  split
  · simp_all
  · split
    · rw [← State.readByte_eq_none_iff]
      cases s.readByte <;> simp_all
    · simp_all

theorem State.memRead_kbsr {s : State} {a : Word} (h : a = s.cfg.kbsrAddr) :
    s.memRead a = some (if s.kbd.hear.queue = [] then s.cfg.kbsrIdle else s.cfg.kbsrReady, s.setKbd s.kbd.hear) := by
  rw [← State.kbsrRead_eq]
  simp [State.memRead, h]

theorem State.memRead_kbdr {s : State} {a : Word} {b : Byte} {k : Keyboard} (h₁ : a ≠ s.cfg.kbsrAddr)
    (h₂ : a = s.cfg.kbdrAddr) (hk : Keyboard.await s.kbd.queue s.kbd.arrivals = some (b, k)) :
    s.memRead a = some (zext b, s.setKbd k) := by
  unfold State.memRead State.kbdrRead State.readByte
  rw [if_neg h₁, if_pos h₂]
  simp [hk]

theorem State.memRead_plain {s : State} {a : Word} (h₁ : a ≠ s.cfg.kbsrAddr) (h₂ : a ≠ s.cfg.kbdrAddr) :
    s.memRead a = some (s.mem.read a.toNat, s) := by
  simp [State.memRead, h₁, h₂]

/-- A read changes nothing but the console's input. -/
theorem State.memRead_setKbd {s t : State} {a v : Word} (h : s.memRead a = some (v, t)) : t = s.setKbd t.kbd := by
  obtain ⟨-, -, rfl⟩ | ⟨-, -, b, k, -, -, rfl⟩ | ⟨-, -, -, rfl⟩ := State.memRead_cases h <;> rfl

/-- A read takes at most one byte, the first of those that are there or to arrive. -/
theorem State.memRead_pending {s t : State} {a v : Word} (h : s.memRead a = some (v, t)) :
    t.kbd.pending = s.kbd.pending ∨
      a = s.cfg.kbdrAddr ∧ ∃ b, v = zext b ∧ s.kbd.pending = b :: t.kbd.pending := by
  obtain ⟨-, -, rfl⟩ | ⟨-, ha, b, k, hk, hv, rfl⟩ | ⟨-, -, -, rfl⟩ := State.memRead_cases h
  · exact .inl (Keyboard.pending_hear _)
  · exact .inr ⟨ha, b, hv, Keyboard.pending_of_await hk⟩
  · exact .inl rfl

/-! ### Fetch, load, trap entry -/

theorem State.fetch_eq_some_iff {s u : State} :
    s.fetch = some u ↔ ∃ w t, s.memRead s.pc = some (w, t) ∧ u = (t.setIr w).setPc (t.pc + 1) := by
  unfold State.fetch
  cases s.memRead s.pc with
  | none => simp
  | some p =>
    obtain ⟨w, t⟩ := p
    simp [eq_comm]

theorem State.loadInto_eq_some_iff {s u : State} {dr : Reg} {a : Word} :
    s.loadInto dr a = some u ↔ ∃ v t, s.memRead a = some (v, t) ∧ u = t.writeDest dr v := by
  unfold State.loadInto
  cases s.memRead a with
  | none => simp
  | some p =>
    obtain ⟨v, t⟩ := p
    simp [eq_comm]

theorem State.trapEntry_eq_some_iff {s u : State} {vector : BitVec 8} :
    s.trapEntry vector = some u ↔ ∃ target t, s.link.memRead (zext vector) = some (target, t) ∧ u = t.setPc target := by
  unfold State.trapEntry
  cases s.link.memRead (zext vector) with
  | none => simp
  | some p =>
    obtain ⟨target, t⟩ := p
    simp [eq_comm]

/-! ### The loops of the services -/

/-- PUTS changes nothing but the console. -/
theorem State.putsLoop_frame {fuel : Nat} {a : Word} {s t : State} (h : State.putsLoop fuel a s = some t) :
    t = { s with kbd := t.kbd, out := t.out } := by
  induction fuel generalizing a s with
  | zero => cases h
  | succ fuel ih =>
    simp only [State.putsLoop] at h
    split at h
    · cases h
    · rename_i w u hu
      rw [State.memRead_setKbd hu] at h
      split at h
      · rw [← Option.some.inj h]
        rfl
      · have hf := ih h
        exact hf

/-- READLINE changes nothing but memory and the console's input. -/
theorem State.readLineLoop_frame {fuel : Nat} {a : Word} {s t : State}
    (h : State.readLineLoop fuel a s = some t) : t = { s with mem := t.mem, kbd := t.kbd } := by
  induction fuel generalizing a s with
  | zero => cases h
  | succ fuel ih =>
    simp only [State.readLineLoop] at h
    split at h
    · cases h
    · rename_i b u hb
      rw [(State.readByte_eq_some_iff.mp hb).2] at h
      split at h
      · rw [← Option.some.inj h]
        rfl
      · have hf := ih h
        exact hf

/-- READLINE keeps the canonical form. -/
theorem State.readLineLoop_wf {fuel : Nat} {a : Word} {s t : State}
    (h : State.readLineLoop fuel a s = some t) (hs : s.mem.wf = true) : t.mem.wf = true := by
  induction fuel generalizing a s with
  | zero => cases h
  | succ fuel ih =>
    simp only [State.readLineLoop] at h
    split at h
    · cases h
    · rename_i b u hb
      have hu : u.mem.wf = true := by
        rw [(State.readByte_eq_some_iff.mp hb).2]
        exact hs
      split at h
      · rw [← Option.some.inj h]
        exact State.wf_memWrite _ _ hu
      · exact ih h (State.wf_memWrite _ _ hu)

/-- Everything a native service can do (R181 to R187). -/
theorem State.service_cases {s t : State} {vector : BitVec 8} (h : s.service vector = some t) :
    (vector = s.cfg.vecGetc ∧
      ∃ b k, Keyboard.await s.kbd.queue s.kbd.arrivals = some (b, k) ∧ t = (s.setKbd k).setReg 0 (zext b)) ∨
    (vector = s.cfg.vecOut ∧ t = s.writeByte (lowByte (s.reg 0))) ∨
    (vector = s.cfg.vecPuts ∧ s.putsFrom (s.reg 0) = some t) ∨
    (vector = s.cfg.vecReadLine ∧ s.readLineTo (s.reg 0) = some t) ∨
    (vector = s.cfg.vecHalt ∧ t = s.halt .normal) ∨
    (vector ∉ s.cfg.vectors ∧ t = s) := by
  unfold State.service at h
  split at h
  · unfold State.getc at h
    split at h
    · cases h
    · rename_i b u hb
      obtain ⟨hk, hu⟩ := State.readByte_eq_some_iff.mp hb
      exact .inl ⟨‹_›, b, _, hk, by rw [← Option.some.inj h, ← hu]⟩
  · split at h
    · exact .inr (.inl ⟨‹_›, (Option.some.inj h).symm⟩)
    · split at h
      · exact .inr (.inr (.inl ⟨‹_›, h⟩))
      · split at h
        · exact .inr (.inr (.inr (.inl ⟨‹_›, h⟩)))
        · split at h
          · exact .inr (.inr (.inr (.inr (.inl ⟨‹_›, (Option.some.inj h).symm⟩))))
          · refine .inr (.inr (.inr (.inr (.inr ⟨?_, (Option.some.inj h).symm⟩))))
            simp [Config.vectors, *]

/-! ### Answers -/

theorem answer_eq_next_iff {o : Option State} {t : State} : answer o = .next t ↔ o = some t := by
  cases o <;> simp [answer]

theorem answer_eq_hold_iff {o : Option State} : answer o = .fault .consoleHold ↔ o = none := by
  cases o <;> simp [answer]

/-- No meaning made of `answer` refuses. -/
theorem answer_ne_refused (o : Option State) (r : Refusal) : answer o ≠ .refused r := by
  cases o <;> simp [answer]

@[simp] theorem retire_next (s t : State) : retire s (.next t) = .next t := rfl
@[simp] theorem retire_hold (s : State) : retire s (.fault .consoleHold) = .next s := rfl

end Sys2Proof.Machine
end

