-- ==== Sys2Proof/Laws/Exec.lean ====
section
/-! SUPPORT. When each meaning that may hold completes and in what state, and what `exec` can answer at all. -/

namespace Sys2Proof.Machine

variable {s t : State}

theorem execLd_eq_next_iff {dr : Reg} {off : BitVec 9} :
    execLd dr off s = .next t ↔ ∃ v u, s.memRead (s.pcRel off) = some (v, u) ∧ t = u.writeDest dr v := by
  rw [execLd, answer_eq_next_iff, State.loadInto_eq_some_iff]

theorem execLdr_eq_next_iff {dr base : Reg} {off : BitVec 6} :
    execLdr dr base off s = .next t ↔ ∃ v u, s.memRead (s.baseOff base off) = some (v, u) ∧ t = u.writeDest dr v := by
  rw [execLdr, answer_eq_next_iff, State.loadInto_eq_some_iff]

theorem execLdi_eq_next_iff {dr : Reg} {off : BitVec 9} :
    execLdi dr off s = .next t ↔ ∃ p u v w, s.memRead (s.pcRel off) = some (p, u) ∧ u.memRead p = some (v, w) ∧
      t = w.writeDest dr v := by
  rw [execLdi, answer_eq_next_iff, Option.bind_eq_some_iff]
  constructor
  · rintro ⟨⟨p, u⟩, hp, hl⟩
    obtain ⟨v, w, hv, ht⟩ := State.loadInto_eq_some_iff.mp hl
    exact ⟨p, u, v, w, hp, hv, ht⟩
  · rintro ⟨p, u, v, w, hp, hv, ht⟩
    exact ⟨(p, u), hp, State.loadInto_eq_some_iff.mpr ⟨v, w, hv, ht⟩⟩

theorem execSti_eq_next_iff {sr : Reg} {off : BitVec 9} :
    execSti sr off s = .next t ↔ ∃ p u, s.memRead (s.pcRel off) = some (p, u) ∧ t = u.memWrite p (s.reg sr) := by
  rw [execSti, answer_eq_next_iff, Option.map_eq_some_iff]
  constructor
  · rintro ⟨⟨p, u⟩, hp, ht⟩
    exact ⟨p, u, hp, ht.symm⟩
  · rintro ⟨p, u, hp, ht⟩
    exact ⟨(p, u), hp, ht.symm⟩

theorem execTrap_eq_next_iff {v : BitVec 8} :
    execTrap v s = .next t ↔ ∃ u, s.trapEntry v = some u ∧ u.service v = some t := by
  rw [execTrap, answer_eq_next_iff, Option.bind_eq_some_iff]

/-- An instruction completes or holds for want of a console byte: `exec` refuses nothing (60_exceptions.md R202). -/
theorem exec_next_or_hold (i : Instr) (s : State) : (∃ t, exec i s = .next t) ∨ exec i s = .fault .consoleHold := by
  have key : ∀ o : Option State, (∃ t, answer o = .next t) ∨ answer o = .fault .consoleHold := by
    intro o
    cases o with
    | none => exact .inr rfl
    | some t => exact .inl ⟨t, rfl⟩
  cases i with
  | ld => exact key _
  | ldi => exact key _
  | ldr => exact key _
  | sti => exact key _
  | trap => exact key _
  | _ => exact .inl ⟨_, rfl⟩

/-- The step of a RUNNING machine with no stop request, once its fetch is known (R110, R112). -/
theorem coreStep_of_fetch {u : State} (hr : s.runState = .running) (hs : s.stopReq = false) (hf : s.fetch = some u) :
    coreStep s = retire s (exec (decode u.ir) u) := by
  unfold coreStep
  simp [hr, hs, hf]

/-- The step when the fetch itself holds (R126). -/
theorem coreStep_of_fetch_none (hr : s.runState = .running) (hs : s.stopReq = false) (hf : s.fetch = none) :
    coreStep s = .next s := by
  unfold coreStep
  simp [hr, hs, hf]

theorem coreStep_of_halted (hr : s.runState = .halted) : coreStep s = .next s := by
  unfold coreStep
  simp [hr]

theorem coreStep_of_stop (hr : s.runState = .running) (hs : s.stopReq = true) :
    coreStep s = .next (s.halt .externalStop) := by
  unfold coreStep
  simp [hr, hs]

/-- Everything the CORE's step can do. -/
theorem coreStep_cases (h : coreStep s = .next t) :
    (s.runState = .halted ∧ t = s) ∨
    (s.runState = .running ∧ s.stopReq = true ∧ t = s.halt .externalStop) ∨
    (s.runState = .running ∧ s.stopReq = false ∧ s.fetch = none ∧ t = s) ∨
    (s.runState = .running ∧ s.stopReq = false ∧ ∃ u, s.fetch = some u ∧
      (exec (decode u.ir) u = .next t ∨ (exec (decode u.ir) u = .fault .consoleHold ∧ t = s))) := by
  cases hr : s.runState with
  | halted =>
    rw [coreStep_of_halted hr] at h
    cases h
    exact .inl ⟨rfl, rfl⟩
  | running =>
    cases hs : s.stopReq with
    | true =>
      rw [coreStep_of_stop hr hs] at h
      cases h
      exact .inr (.inl ⟨rfl, rfl, rfl⟩)
    | false =>
      cases hf : s.fetch with
      | none =>
        rw [coreStep_of_fetch_none hr hs hf] at h
        cases h
        exact .inr (.inr (.inl ⟨rfl, rfl, rfl, rfl⟩))
      | some u =>
        rw [coreStep_of_fetch hr hs hf] at h
        refine .inr (.inr (.inr ⟨rfl, rfl, u, rfl, ?_⟩))
        obtain ⟨t', ht'⟩ | hh := exec_next_or_hold (decode u.ir) u
        · rw [ht', retire_next] at h
          cases h
          exact .inl ht'
        · rw [hh, retire_hold] at h
          cases h
          exact .inr ⟨hh, rfl⟩

/-! ### The environment's moves -/

theorem State.land_nil (h : s.env = []) : s.land = s := by
  unfold State.land
  rw [h]

theorem State.land_cons {moves : List EnvMove} {rest : List (List EnvMove)} (h : s.env = moves :: rest) :
    s.land = moves.foldl State.move { s with env := rest } := by
  unfold State.land
  rw [h]

/-- A property that every move keeps is kept by the moves that land. -/
theorem State.land_induct {P : State → Prop} (hs : ∀ rest, P { s with env := rest })
    (hm : ∀ u m, P u → P (u.move m)) : P s.land := by
  have fold : ∀ (moves : List EnvMove) (u : State), P u → P (moves.foldl State.move u) := by
    intro moves
    induction moves with
    | nil => exact fun _ h => h
    | cons m rest ih => exact fun u h => ih _ (hm u m h)
  cases he : s.env with
  | nil =>
    rw [State.land_nil he]
    have h := hs s.env
    exact h
  | cons moves rest =>
    rw [State.land_cons he]
    exact fold moves _ (hs rest)

end Sys2Proof.Machine
end

