-- ==== Sys2Proof/Laws/PerInstr.lean ====
section
/-! SUPPORT. Facts made per instruction: the opcode that each form's canonical Word carries (30_encoding.md R82, R83). -/

namespace Sys2Proof.Laws.EncodeOpcode

/-- Bits 15 to 12 of an instruction's canonical Word are its opcode. -/
def Statement (i : Instr) : Prop := Field.opcode (encode i) = i.opcode.bits

theorem opcode_place (o : BitVec 4) : (place o 12).extractLsb' 12 4 = o := extract_place_self o (by decide)

/-- A field placed below bit 12 does not reach the opcode. -/
theorem opcode_place_low {n lo : Nat} (v : BitVec n) (h : lo + n ≤ 12) : (place v lo).extractLsb' 12 4 = 0#4 :=
  extract_place_disjoint v (.inl h)

theorem addReg (dr sr1 sr2 : Reg) : Statement (.addReg dr sr1 sr2) := by
  simp [Statement, encode, Field.opcode, Instr.opcode, encOpReg, BitVec.extractLsb'_or, opcode_place_low, opcode_place]

theorem addImm (dr sr1 : Reg) (imm5 : BitVec 5) : Statement (.addImm dr sr1 imm5) := by
  simp [Statement, encode, Field.opcode, Instr.opcode, encOpImm, BitVec.extractLsb'_or, opcode_place_low, opcode_place]

theorem andReg (dr sr1 sr2 : Reg) : Statement (.andReg dr sr1 sr2) := by
  simp [Statement, encode, Field.opcode, Instr.opcode, encOpReg, BitVec.extractLsb'_or, opcode_place_low, opcode_place]

theorem andImm (dr sr1 : Reg) (imm5 : BitVec 5) : Statement (.andImm dr sr1 imm5) := by
  simp [Statement, encode, Field.opcode, Instr.opcode, encOpImm, BitVec.extractLsb'_or, opcode_place_low, opcode_place]

theorem not (dr sr1 : Reg) : Statement (.not dr sr1) := by
  simp [Statement, encode, Field.opcode, Instr.opcode, BitVec.extractLsb'_or, opcode_place_low, opcode_place]

theorem br (n z p : Bool) (offset9 : BitVec 9) : Statement (.br n z p offset9) := by
  simp [Statement, encode, Field.opcode, Instr.opcode, BitVec.extractLsb'_or, opcode_place_low, opcode_place]

theorem jmp (baseR : Reg) : Statement (.jmp baseR) := by
  simp [Statement, encode, Field.opcode, Instr.opcode, BitVec.extractLsb'_or, opcode_place_low, opcode_place]

theorem jsr (offset11 : BitVec 11) : Statement (.jsr offset11) := by
  simp [Statement, encode, Field.opcode, Instr.opcode, BitVec.extractLsb'_or, opcode_place_low, opcode_place]

theorem jsrr (baseR : Reg) : Statement (.jsrr baseR) := by
  simp [Statement, encode, Field.opcode, Instr.opcode, BitVec.extractLsb'_or, opcode_place_low, opcode_place]

theorem ld (dr : Reg) (offset9 : BitVec 9) : Statement (.ld dr offset9) := by
  simp [Statement, encode, Field.opcode, Instr.opcode, encPcRel, BitVec.extractLsb'_or, opcode_place_low, opcode_place]

theorem ldi (dr : Reg) (offset9 : BitVec 9) : Statement (.ldi dr offset9) := by
  simp [Statement, encode, Field.opcode, Instr.opcode, encPcRel, BitVec.extractLsb'_or, opcode_place_low, opcode_place]

theorem ldr (dr baseR : Reg) (offset6 : BitVec 6) : Statement (.ldr dr baseR offset6) := by
  simp [Statement, encode, Field.opcode, Instr.opcode, encBase, BitVec.extractLsb'_or, opcode_place_low, opcode_place]

theorem lea (dr : Reg) (offset9 : BitVec 9) : Statement (.lea dr offset9) := by
  simp [Statement, encode, Field.opcode, Instr.opcode, encPcRel, BitVec.extractLsb'_or, opcode_place_low, opcode_place]

theorem st (sr : Reg) (offset9 : BitVec 9) : Statement (.st sr offset9) := by
  simp [Statement, encode, Field.opcode, Instr.opcode, encPcRel, BitVec.extractLsb'_or, opcode_place_low, opcode_place]

theorem sti (sr : Reg) (offset9 : BitVec 9) : Statement (.sti sr offset9) := by
  simp [Statement, encode, Field.opcode, Instr.opcode, encPcRel, BitVec.extractLsb'_or, opcode_place_low, opcode_place]

theorem str (sr baseR : Reg) (offset6 : BitVec 6) : Statement (.str sr baseR offset6) := by
  simp [Statement, encode, Field.opcode, Instr.opcode, encBase, BitVec.extractLsb'_or, opcode_place_low, opcode_place]

theorem trap (trapvect8 : BitVec 8) : Statement (.trap trapvect8) := by
  simp [Statement, encode, Field.opcode, Instr.opcode, BitVec.extractLsb'_or, opcode_place_low, opcode_place]

theorem rti : Statement .rti := by
  simp [Statement, encode, Field.opcode, Instr.opcode, opcode_place]

theorem res : Statement .res := by
  simp [Statement, encode, Field.opcode, Instr.opcode, opcode_place]

end Sys2Proof.Laws.EncodeOpcode
end

