-- ==== Sys2Proof/Tests/Slice0.lean ====
section
/-! SUPPORT. Smoke tests of the well-formedness checks, decodings of words written out from 30_encoding.md R83, single
steps whose results are 95_test_vectors.md's, and for each statement with hypotheses a state and operands that meet them. -/

namespace Sys2Proof.Tests

open Sys2Proof.Machine Sys2Proof.Claims

/-! ### The well-formedness checks refuse ill-formed terms (R5, R86; log entry 1) -/

theorem test_default_config_is_wf : Config.default.wf = true := by decide
theorem test_equal_devices_refused : { Config.default with kbdrAddr := 0xFE00 }.devicesDistinct = false := by decide
theorem test_equal_vectors_refused : { Config.default with vecReadLine := 0x20 }.vectorsDistinct = false := by decide
theorem test_ill_formed_configs_refused : { Config.default with kbdrAddr := 0xFE00 }.wf = false ∧
    { Config.default with vecHalt := 0x21 }.wf = false := by decide
theorem test_illegal_instructions_refused : Instr.rti.legal = false ∧ Instr.res.legal = false := by decide
theorem test_memory_form_refuses : Memory.wf [(2, 1), (1, 1)] = false ∧ Memory.wf [(1, 1), (1, 2)] = false ∧
    Memory.wf [(1, 0)] = false ∧ Memory.wf [(65536, 1)] = false ∧ Memory.wf [(0, 1), (65535, 1)] = true := by decide
theorem test_no_words_refused_by_name : decodeWords [] = .error .noWord := rfl
theorem test_table_word_refused : decodeTableWord 17 0 = none ∧ decodeTableWord 16 65536 = none := by decide

/-! ### Words written out bit by bit from R83: opcode, then the fields -/

theorem test_decode_addReg : decode 0b0001101010000011 = .addReg 5 2 3 := by decide
theorem test_decode_addImm : decode 0b0001110001110000 = .addImm 6 1 0b10000 := by decide
theorem test_decode_andReg : decode 0b0101001110000101 = .andReg 1 6 5 := by decide
theorem test_decode_andImm : decode 0b0101011100101101 = .andImm 3 4 0b01101 := by decide
theorem test_decode_not : decode 0b1001100011111111 = .not 4 3 := by decide
theorem test_decode_br : decode 0b0000101100000001 = .br true false true 0b100000001 := by decide
theorem test_decode_jmp : decode 0b1100000101000000 = .jmp 5 := by decide
theorem test_decode_jsr : decode 0b0100110000000011 = .jsr 0b10000000011 := by decide
theorem test_decode_jsrr : decode 0b0100000110000000 = .jsrr 6 := by decide
theorem test_decode_ld : decode 0b0010110011111110 = .ld 6 0b011111110 := by decide
theorem test_decode_ldi : decode 0b1010011100000010 = .ldi 3 0b100000010 := by decide
theorem test_decode_ldr : decode 0b0110001110100001 = .ldr 1 6 0b100001 := by decide
theorem test_decode_lea : decode 0b1110101000001111 = .lea 5 0b000001111 := by decide
theorem test_decode_st : decode 0b0011010101010101 = .st 2 0b101010101 := by decide
theorem test_decode_sti : decode 0b1011100110000001 = .sti 4 0b110000001 := by decide
theorem test_decode_str : decode 0b0111111001011110 = .str 7 1 0b011110 := by decide
theorem test_decode_trap : decode 0b1111000010100101 = .trap 0b10100101 := by decide
theorem test_decode_rti : decode 0b1000000000000000 = .rti := by decide
theorem test_decode_res : decode 0b1101000000000000 = .res := by decide

/-! ### Single steps of 95_test_vectors.md -/

/-- These bytes in the queue and none to arrive. -/
abbrev keys (queue : List Byte) : Keyboard := { queue := queue, arrivals := [] }

/-- A start state of the vectors: reset, with the PC, some cells and some registers set. -/
def start (pc : Word) (cells : List (Word × Word)) (regs : List (Reg × Word)) : State :=
  regs.foldl (fun s r => s.setReg r.1 r.2) { State.reset with pc := pc, mem := Memory.load cells }

/-- The step answers a next state that satisfies `p`. -/
def after (s : State) (p : State → Bool) : Bool :=
  match step s with
  | .next t => p t
  | .fault _ => false
  | .refused _ => false

/-- V-OP. -/
theorem test_addReg_carry_lost : after (start 0x3000 [(0x3000, 0x1042)] [(1, 0xFFFF), (2, 0x0001)])
    (fun t => t.reg 0 == 0 && t.cond == .zero && t.pc == 0x3001) = true := by decide
/-- V-OP: DR, SR1 and SR2 the same register. -/
theorem test_addReg_doubles : after (start 0x3000 [(0x3000, 0x1241)] [(1, 0x4000)])
    (fun t => t.reg 1 == 0x8000 && t.cond == .negative && t.pc == 0x3001) = true := by decide
/-- S3. -/
theorem test_addImm_minus_one : after (start 0x3000 [(0x3000, 0x103F)] [(0, 5)])
    (fun t => t.reg 0 == 4 && t.cond == .positive && t.pc == 0x3001) = true := by decide
/-- V-OP: R7 as DR sets the flags. -/
theorem test_addImm_r7 : after (start 0x3000 [(0x3000, 0x1FE0)] [(7, 0x8000)])
    (fun t => t.reg 7 == 0x8000 && t.cond == .negative) = true := by decide
/-- V-OP. -/
theorem test_andReg : after (start 0x3000 [(0x3000, 0x5042)] [(1, 0xFF00), (2, 0x0FF0)])
    (fun t => t.reg 0 == 0x0F00 && t.cond == .positive && t.pc == 0x3001) = true := by decide
/-- V-OP: the immediate extends to 0xFFF0. -/
theorem test_andImm_negative : after (start 0x3000 [(0x3000, 0x56F0)] [(3, 0xABCD)])
    (fun t => t.reg 3 == 0xABC0 && t.cond == .negative) = true := by decide
/-- V-OP: ignored bits. -/
theorem test_not_ignored_bits : after (start 0x3000 [(0x3000, 0x9040)] [(1, 0x8000)])
    (fun t => t.reg 0 == 0x7FFF && t.cond == .positive && t.pc == 0x3001) = true := by decide
/-- V-CT: BRp #255 at 0xFFFF wraps upward. -/
theorem test_br_wraps : after { start 0xFFFF [(0xFFFF, 0x02FF)] [] with cond := .positive }
    (fun t => t.pc == 0x00FF) = true := by decide
/-- V-CT: BRnp with the zero flag is not taken. -/
theorem test_br_not_taken : after (start 0x3000 [(0x3000, 0x0A03)] []) (fun t => t.pc == 0x3001) = true := by decide
/-- V-CT. -/
theorem test_jmp_r7 : after (start 0x3000 [(0x3000, 0xCFFF)] [(7, 0x1234)])
    (fun t => t.pc == 0x1234 && t.reg 7 == 0x1234) = true := by decide
/-- V-CT: link and target wrap. -/
theorem test_jsr_wraps : after (start 0xFFFF [(0xFFFF, 0x4BFF)] [])
    (fun t => t.reg 7 == 0x0000 && t.pc == 0x03FF) = true := by decide
/-- V-CT: JSRR R7 does not jump. -/
theorem test_jsrr_r7 : after (start 0x3010 [(0x3010, 0x41C0)] [(7, 0x5000)])
    (fun t => t.reg 7 == 0x3011 && t.pc == 0x3011) = true := by decide
/-- V-LS: LD at 0xFFFF, the address wraps. -/
theorem test_ld_wraps : after (start 0xFFFF [(0xFFFF, 0x2002), (0x0002, 0x0007)] [])
    (fun t => t.reg 0 == 7 && t.cond == .positive && t.pc == 0x0000) = true := by decide
/-- V-LS: LDI to the keyboard status with a key there; the key is not consumed. -/
theorem test_ldi_status : after { start 0x3000 [(0x3000, 0xA003), (0x3004, 0xFE00)] [] with kbd := keys [0x7A] }
    (fun t => t.reg 0 == 0x8000 && t.cond == .negative && t.kbd == keys [0x7A]) = true := by decide
/-- V-LS: LDI to the keyboard data with no key holds; nothing changes. -/
theorem test_ldi_holds : after (start 0x3000 [(0x3000, 0xA203), (0x3004, 0xFE02)] [])
    (fun t => t == start 0x3000 [(0x3000, 0xA203), (0x3004, 0xFE02)] []) = true := by decide
/-- V-LS: DR is the base register. -/
theorem test_ldr_dr_is_base : after (start 0x3000 [(0x3000, 0x649F), (0x401F, 0x7FFF)] [(2, 0x4000)])
    (fun t => t.reg 2 == 0x7FFF && t.cond == .positive) = true := by decide
/-- V-LS: LEA sets the flag from the address. -/
theorem test_lea_negative : after (start 0x7F00 [(0x7F00, 0xE0FF)] [])
    (fun t => t.reg 0 == 0x8000 && t.cond == .negative && t.pc == 0x7F01) = true := by decide
/-- V-LS: ST overwrites itself. -/
theorem test_st_itself : after (start 0x3000 [(0x3000, 0x31FF)] [(0, 0xAAAA)])
    (fun t => t.mem.read 0x3000 == 0xAAAA && t.pc == 0x3001 && t.cond == .zero) = true := by decide
/-- V-LS. -/
theorem test_sti : after (start 0x3000 [(0x3000, 0xB203), (0x3004, 0x4000)] [(1, 0xBEEF)])
    (fun t => t.mem.read 0x4000 == 0xBEEF && t.mem.read 0x3004 == 0x4000 && t.pc == 0x3001) = true := by decide
/-- V-LS: SR is the base register, the address wraps, and the stored zero takes the cell off the list. -/
theorem test_str_wraps : after (start 0x3000 [(0x3000, 0x74BF), (0xFFFF, 0x1111)] [])
    (fun t => t.mem == [(0x3000, 0x74BF)] && t.pc == 0x3001) = true := by decide
/-- V-TRAP: PUTS writes low bytes, and 0x0100 does not end the string. -/
theorem test_trap_puts : after (start 0x3000 [(0x3000, 0xF022), (0x0022, 0x0200), (0x3010, 0x0148), (0x3011, 0x0100)]
      [(0, 0x3010)])
    (fun t => t.out == [0x48, 0x00] && t.reg 7 == 0x3001 && t.pc == 0x0200 && t.reg 0 == 0x3010) = true := by decide
/-- V-TRAP: READLINE. -/
theorem test_trap_readline : after { start 0x3000 [(0x3000, 0xF023), (0x0023, 0x0200), (0x4002, 0x9999)] [(0, 0x4000)]
      with kbd := keys [0x68, 0x69, 0x0A, 0x58] }
    (fun t => t.mem.read 0x4000 == 0x68 && t.mem.read 0x4001 == 0x69 && t.mem.read 0x4002 == 0 && t.kbd == keys [0x58] &&
      t.pc == 0x0200) = true := by decide
/-- V-ILL: at 0xFFFF. -/
theorem test_rti_halts : after (start 0xFFFF [(0xFFFF, 0x8FFF)] [])
    (fun t => t.runState == .halted && t.haltCause == .illegalInstruction && t.pc == 0x0000) = true := by decide
/-- V-STOP: the stop wins over the decode error. -/
theorem test_stop_wins_over_res : after { start 0x3000 [(0x3000, 0xD000)] [] with stopReq := true }
    (fun t => t.runState == .halted && t.haltCause == .externalStop && t.pc == 0x3000) = true := by decide
/-- V-ILL. -/
theorem test_res_halts : after (start 0x3000 [(0x3000, 0xD123)] [])
    (fun t => t.runState == .halted && t.haltCause == .illegalInstruction && t.pc == 0x3001) = true := by decide
/-- R239: a key that lands before a step is seen by its status read. -/
theorem test_key_lands_before_the_step : after
    { start 0x3000 [(0x3000, 0xA003), (0x3004, 0xFE00)] [] with env := [[.key 0x7A], [.stop]] }
    (fun t => t.reg 0 == 0x8000 && t.kbd == keys [0x7A] && t.env == [[.stop]]) = true := by decide
/-- R33, R53: LDI through the status address with KBSR_IDLE = KBSR_ADDR; the byte arrives between its two polls. -/
theorem test_key_arrives_between_two_polls : after
    { start 0xFDFF [(0xFDFF, 0xA000)] [] with
      cfg.kbsrIdle := 0xFE00, kbd := { queue := [], arrivals := [[], [0x7A]] } }
    (fun t => t.reg 0 == 0x8000 && t.kbd == keys [0x7A]) = true := by decide
/-- R54, R182: GETC waits through an empty batch and takes the byte that then arrives. -/
theorem test_getc_awaits_an_arrival : after
    { start 0x3000 [(0x3000, 0xF020), (0x0020, 0x0200)] [] with kbd := { queue := [], arrivals := [[], [0x41, 0x42], [0x43]] } }
    (fun t => t.reg 0 == 0x0041 && t.kbd == { queue := [0x42], arrivals := [[0x43]] }) = true := by decide

/-! ### Witnesses: each meets all the hypotheses of the statement it names -/

theorem witness_IgnoredBitsAreNotExamined :
    (0x1003 : Word) &&& (decode 0x1003).examined = 0x101B &&& (decode 0x1003).examined ∧
    (0xF025 : Word) &&& (decode 0xF025).examined = 0xFF25 &&& (decode 0xF025).examined := by decide
theorem witness_SignExtension_bit_ranges : (4 < 5 ∧ 10 < 11) ∧ (5 ≤ 5 ∧ 5 < 16) ∧ (11 ≤ 15 ∧ 15 < 16) ∧ 8 ≤ 15 := by decide
theorem witness_CanonicalMemories : Memory.wf [(0, 1), (65535, 2)] = true ∧
    (∀ a : Word, Memory.read [(0, 1), (65535, 2)] a.toNat = Memory.read [(0, 1), (65535, 2)] a.toNat) :=
  ⟨by decide, fun _ => rfl⟩
/-- A Word under each mask that a decoding clause assumes, in the table's order. -/
theorem witness_decoding_clauses :
    (0x1042 : Word) &&& 0xF020 = 0x1000 ∧ (0x103F : Word) &&& 0xF020 = 0x1020 ∧ (0x5042 : Word) &&& 0xF020 = 0x5000 ∧
    (0x56E0 : Word) &&& 0xF020 = 0x5020 ∧ (0x907F : Word) &&& 0xF000 = 0x9000 ∧ (0x0402 : Word) &&& 0xF000 = 0x0000 ∧
    (0xC080 : Word) &&& 0xF000 = 0xC000 ∧ (0x4805 : Word) &&& 0xF800 = 0x4800 ∧ (0x40C0 : Word) &&& 0xF800 = 0x4000 ∧
    (0x2202 : Word) &&& 0xF000 = 0x2000 ∧ (0xA5FE : Word) &&& 0xF000 = 0xA000 ∧ (0x62BF : Word) &&& 0xF000 = 0x6000 ∧
    (0xE1FD : Word) &&& 0xF000 = 0xE000 ∧ (0x3001 : Word) &&& 0xF000 = 0x3000 ∧ (0xB203 : Word) &&& 0xF000 = 0xB000 ∧
    (0x7285 : Word) &&& 0xF000 = 0x7000 ∧ (0xF025 : Word) &&& 0xF000 = 0xF000 ∧ (0x8FFF : Word) &&& 0xF000 = 0x8000 ∧
    (0xD123 : Word) &&& 0xF000 = 0xD000 := by decide

/-- A state in which PC-relative offset 0 reaches `pc` itself. -/
def at_ (pc : Word) (queue : List Byte) : State := { start pc [(0xFE01, 0x1111), (0xFFFF, 0x2222)] [] with kbd := keys queue }

/-- The three clauses of a completed read, the plain one at both sides of each device address and at the top. -/
theorem witness_ReadGives_status : ReadGives (at_ 0xFE00 [0x41]) ((at_ 0xFE00 [0x41]).pc + (0 : BitVec 9).signExtend 16)
    0x8000 (keys [0x41]) := .inl ⟨by decide, by decide, by decide⟩
theorem witness_ReadGives_status_idle : ReadGives (at_ 0xFE00 []) 0xFE00 0x0000 (keys []) :=
  .inl ⟨by decide, by decide, by decide⟩
theorem witness_ReadGives_data : ReadGives (at_ 0xFE02 [0x41]) ((at_ 0xFE02 [0x41]).pc + (0 : BitVec 9).signExtend 16)
    0x0041 (keys []) := .inr (.inl ⟨by decide, by decide, 0x41, .inl ⟨by decide, by decide⟩, by decide⟩)
/-- The data address with an empty queue: the second batch to arrive brings the byte. -/
theorem witness_ReadGives_data_awaited : ReadGives { at_ 0xFE02 [] with kbd := { queue := [], arrivals := [[], [0x41, 0x42]] } }
    0xFE02 0x0041 (keys [0x42]) := .inr (.inl ⟨by decide, by decide, 0x41, .inr ⟨by decide, 1, by decide⟩, by decide⟩)
/-- The status address with an empty queue to which the next batch arrives. -/
theorem witness_ReadGives_status_heard : ReadGives { at_ 0xFE00 [] with kbd := { queue := [], arrivals := [[0x41], [0x42]] } }
    0xFE00 0x8000 { queue := [0x41], arrivals := [[0x42]] } := .inl ⟨by decide, by decide, by decide⟩
theorem witness_ReadGives_plain : ReadGives (at_ 0xFE01 []) 0xFE01 0x1111 (keys []) ∧ ReadGives (at_ 0xFE01 []) 0xFDFF 0 (keys []) ∧
    ReadGives (at_ 0xFE01 []) 0xFE03 0 (keys []) ∧ ReadGives (at_ 0xFE01 []) 0xFFFF 0x2222 (keys []) ∧ ReadGives (at_ 0xFE01 []) 0 0 (keys []) := by
  refine ⟨?_, ?_, ?_, ?_, ?_⟩ <;> exact .inr (.inr ⟨by decide, by decide, by decide⟩)
/-- LoadIndirect: the pointer read from the keyboard-data address, the data from the status address. -/
theorem witness_LoadIndirect : ReadGives { at_ 0xFE02 [0x00] with cfg.kbsrAddr := 0x0000 }
      ((at_ 0xFE02 [0x00]).pc + (0 : BitVec 9).signExtend 16) 0x0000 (keys []) ∧
    ReadGives { at_ 0xFE02 [] with cfg.kbsrAddr := 0x0000 } 0x0000 0x0000 (keys []) :=
  ⟨.inr (.inl ⟨by decide, by decide, 0x00, .inl ⟨by decide, by decide⟩, by decide⟩), .inl ⟨by decide, by decide, by decide⟩⟩
theorem witness_LoadBaseOffset : ReadGives (start 0x3000 [(0x4000, 0x0007)] [(2, 0x4001)])
    ((start 0x3000 [(0x4000, 0x0007)] [(2, 0x4001)]).reg 2 + (0x3F : BitVec 6).signExtend 16) 0x0007 (keys []) :=
  .inr (.inr ⟨by decide, by decide, by decide⟩)
theorem witness_StoreIndirect : ReadGives (start 0x3001 [(0x3004, 0x4000)] [])
    ((start 0x3001 [(0x3004, 0x4000)] []).pc + (3 : BitVec 9).signExtend 16) 0x4000 (keys []) :=
  .inr (.inr ⟨by decide, by decide, by decide⟩)
/-- AppendedKeyLiftsTheWait, and the left sides of LoadsWaitExactlyForAMissingKey. -/
theorem witness_ReadHolds : ReadHolds (at_ 0xFE02 []) ((at_ 0xFE02 []).pc + (0 : BitVec 9).signExtend 16) :=
  ⟨by decide, by decide, by decide, by decide⟩
/-- A wait with batches still to come that bring nothing. -/
theorem witness_ReadHolds_empty_batches : ReadHolds { at_ 0xFE02 [] with kbd := { queue := [], arrivals := [[], []] } } 0xFE02 :=
  ⟨by decide, by decide, by decide, by decide⟩
theorem witness_StoreIsSeenByTheNextFetch : Plain (at_ 0xFE01 []) (at_ 0xFE01 []).pc := ⟨by decide, by decide⟩

/-- A state for the TRAP statements: table entries, a two-character string at 0x3010, and input. -/
def trapState (queue : List Byte) : State :=
  { start 0x3001 [(0x0020, 0x0200), (0x0021, 0x0200), (0x0022, 0x0200), (0x0023, 0x0200), (0x0025, 0x0200),
      (0x00FF, 0xFE00), (0x3010, 0x0148), (0x3011, 0x0100)] [(0, 0x3010)] with kbd := keys queue }

theorem witness_TrapWithoutService : (0xFF : BitVec 8) ∉ (trapState []).cfg.vectors ∧
    ReadGives (trapState []) ((0xFF : BitVec 8).setWidth 16) 0xFE00 (keys []) :=
  ⟨by decide, .inr (.inr ⟨by decide, by decide, by decide⟩)⟩
theorem witness_TrapGetc : ReadGives (trapState [0x41, 0x42]) ((trapState [0x41, 0x42]).cfg.vecGetc.setWidth 16) 0x0200
    (keys [0x41, 0x42]) ∧ ByteGives (keys [0x41, 0x42]) 0x41 (keys [0x42]) :=
  ⟨.inr (.inr ⟨by decide, by decide, by decide⟩), .inl ⟨by decide, by decide⟩⟩
theorem witness_TrapOut : (trapState []).cfg.wf = true ∧
    ReadGives (trapState []) ((trapState []).cfg.vecOut.setWidth 16) 0x0200 (keys []) :=
  ⟨by decide, .inr (.inr ⟨by decide, by decide, by decide⟩)⟩
theorem witness_TrapHalt : (trapState []).cfg.wf = true ∧
    ReadGives (trapState []) ((trapState []).cfg.vecHalt.setWidth 16) 0x0200 (keys []) :=
  ⟨by decide, .inr (.inr ⟨by decide, by decide, by decide⟩)⟩
theorem witness_TrapPuts : (trapState []).cfg.wf = true ∧
    ReadGives (trapState []) ((trapState []).cfg.vecPuts.setWidth 16) 0x0200 (keys []) ∧
    (∀ (j : Nat) (hj : j < [(0x0148 : Word), 0x0100].length), [(0x0148 : Word), 0x0100][j] ≠ 0x0000 ∧
      Plain (trapState []) ((trapState []).reg 0 + BitVec.ofNat 16 j) ∧
      (trapState []).mem.read ((trapState []).reg 0 + BitVec.ofNat 16 j).toNat = [(0x0148 : Word), 0x0100][j]) ∧
    Plain (trapState []) ((trapState []).reg 0 + BitVec.ofNat 16 [(0x0148 : Word), 0x0100].length) ∧
    (trapState []).mem.read ((trapState []).reg 0 + BitVec.ofNat 16 [(0x0148 : Word), 0x0100].length).toNat = 0x0000 := by
  refine ⟨by decide, .inr (.inr ⟨by decide, by decide, by decide⟩), ?_, by decide, by decide⟩
  intro j hj
  match j, hj with
  | 0, _ => exact ⟨by simp, by decide, rfl⟩
  | 1, _ => exact ⟨by simp, by decide, rfl⟩
theorem witness_TrapReadLine : (trapState [0x68, 0x69, 0x0A, 0x58]).cfg.wf = true ∧
    ReadGives (trapState [0x68, 0x69, 0x0A, 0x58]) ((trapState [0x68, 0x69, 0x0A, 0x58]).cfg.vecReadLine.setWidth 16) 0x0200
      (keys [0x68, 0x69, 0x0A, 0x58]) ∧
    BytesGive (keys [0x68, 0x69, 0x0A, 0x58]) ([0x68, 0x69] ++ [(trapState []).cfg.lineEnd]) (keys [0x58]) ∧
    (trapState []).cfg.lineEnd ∉ [(0x68 : Byte), 0x69] ∧ [(0x68 : Byte), 0x69].length < 65536 :=
  ⟨by decide, .inr (.inr ⟨by decide, by decide, by decide⟩),
    ⟨keys [0x69, 0x0A, 0x58], .inl ⟨rfl, rfl⟩, keys [0x0A, 0x58], .inl ⟨rfl, rfl⟩, keys [0x58], .inl ⟨rfl, rfl⟩, rfl⟩,
    by decide, by decide⟩
theorem witness_TrapReadLine_empty_line : ReadGives (trapState [0x0A]) ((trapState [0x0A]).cfg.vecReadLine.setWidth 16) 0x0200
    (keys [0x0A]) ∧ BytesGive (keys [0x0A]) ([] ++ [(trapState []).cfg.lineEnd]) (keys []) :=
  ⟨.inr (.inr ⟨by decide, by decide, by decide⟩), keys [], .inl ⟨rfl, rfl⟩, rfl⟩
theorem witness_TrapWaits : (trapState []).cfg.wf = true ∧ Plain (trapState []) ((0x20 : BitVec 8).setWidth 16) ∧
    (0x20 : BitVec 8) = (trapState []).cfg.vecGetc ∧ Plain (trapState []) ((0x23 : BitVec 8).setWidth 16) ∧
    (0x23 : BitVec 8) = (trapState []).cfg.vecReadLine ∧ Plain (trapState []) ((0x21 : BitVec 8).setWidth 16) ∧
    (0x21 : BitVec 8) = (trapState []).cfg.vecOut ∧ Plain (trapState []) ((0x25 : BitVec 8).setWidth 16) ∧
    (0x25 : BitVec 8) = (trapState []).cfg.vecHalt ∧ Plain (trapState []) ((0xFF : BitVec 8).setWidth 16) ∧
    (0xFF : BitVec 8) ∉ (trapState []).cfg.vectors :=
  ⟨by decide, ⟨by decide, by decide⟩, by decide, ⟨by decide, by decide⟩, by decide, ⟨by decide, by decide⟩, by decide,
    ⟨by decide, by decide⟩, by decide, ⟨by decide, by decide⟩, by decide⟩

theorem witness_StepRunsTheDecodedInstruction : Ready (start 0x3000 [(0x3000, 0x1042)] []) ∧
    ReadGives (start 0x3000 [(0x3000, 0x1042)] []).land (start 0x3000 [(0x3000, 0x1042)] []).land.pc 0x1042 (keys []) ∧
    decode 0x1042 = .addReg 0 1 2 ∧ exec (.addReg 0 1 2)
      { (start 0x3000 [(0x3000, 0x1042)] []).land with ir := 0x1042, pc := 0x3001, kbd := keys [] } =
      .next (({ (start 0x3000 [(0x3000, 0x1042)] []).land with ir := 0x1042, pc := 0x3001, kbd := keys [] } : State).writeDest 0 0) :=
  ⟨⟨by decide, by decide⟩, .inr (.inr ⟨⟨by decide, by decide⟩, by decide, by decide⟩), by decide, rfl⟩
/-- The second clause: the execution waits. -/
theorem witness_StepRuns_waiting : Ready (start 0x3000 [(0x3000, 0xF020)] []) ∧
    ReadGives (start 0x3000 [(0x3000, 0xF020)] []).land (start 0x3000 [(0x3000, 0xF020)] []).land.pc 0xF020 (keys []) ∧
    exec (.trap 0x20) { (start 0x3000 [(0x3000, 0xF020)] []).land with ir := 0xF020, pc := 0x3001, kbd := keys [] } =
      .fault .consoleHold :=
  ⟨⟨by decide, by decide⟩, .inr (.inr ⟨⟨by decide, by decide⟩, by decide, by decide⟩), rfl⟩
theorem witness_FetchWithoutAKeyWaits : Ready (at_ 0xFE02 []) ∧ ReadHolds (at_ 0xFE02 []).land (at_ 0xFE02 []).land.pc :=
  ⟨⟨by decide, by decide⟩, ⟨by decide, by decide, by decide, by decide⟩⟩
theorem witness_StopRequest : ({ State.reset with env := [[.stop]] } : State).land.runState = .running ∧
    ({ State.reset with env := [[.stop]] } : State).land.stopReq = true := by decide
theorem witness_HaltedIsAbsorbing : ({ State.reset with runState := .halted, env := [[.key 0x41], [.reset 0 []]] } : State).runState
      = .halted ∧ NoResetDue { State.reset with runState := .halted, env := [[.key 0x41], [.reset 0 []]] } := by
  refine ⟨rfl, ?_⟩
  intro moves rest h origin image
  obtain ⟨rfl, -⟩ := List.cons.inj h
  simp
/-- HaltedIsEnteredInThreeWays: a step of a RUNNING machine that ends HALTED, once for each way. -/
theorem witness_HaltedIsEnteredInThreeWays :
    after { State.reset with stopReq := true } (fun t => t.runState == .halted && t.haltCause == .externalStop) = true ∧
    after (start 0x3000 [(0x3000, 0x8000)] []) (fun t => t.runState == .halted && t.haltCause == .illegalInstruction) = true ∧
    after (start 0x3000 [(0x3000, 0xF025)] []) (fun t => t.runState == .halted && t.haltCause == .normal) = true ∧
    State.reset.land.runState = .running := by decide
/-- The whole-machine rules: an instruction that completes, with its side condition. -/
theorem witness_whole_machine_rules :
    exec (.st 0 0) State.reset = .next (State.reset.memWrite 0x3000 0) ∧ setsFlags (.st 0 0) = false ∧
    mayJump (.st 0 0) = false ∧ exec (.jmp 7) State.reset = .next (State.reset.setPc 0) ∧
    mayStore State.reset.cfg (.jmp 7) = false ∧ mayStore State.reset.cfg (.trap 0x20) = false ∧
    (4 : Reg) ∉ writesRegs State.reset.cfg (.trap 0x20) := ⟨rfl, by decide, by decide, rfl, by decide, by decide, by decide⟩
theorem witness_ParametersAreConstant : step State.reset = .next { State.reset with pc := 0x3001 } ∧ NoResetDue State.reset :=
  ⟨rfl, fun _ _ h => nomatch h⟩
theorem witness_ResetMove : ({ State.reset with env := [[.reset 0x4000 [(0x4000, 0xF025), (0x4000, 0x1042)]]] } : State).env =
      [.reset 0x4000 [(0x4000, 0xF025), (0x4000, 0x1042)]] :: [] ∧
    [((0x4000 : Word), (0xF025 : Word)), (0x4000, 0x1042)] = [(0x4000, 0xF025)] ++ (0x4000, 0x1042) :: [] ∧
    (∀ cell ∈ [((0x4000 : Word), (0xF025 : Word)), (0x4000, 0x1042)], cell.1 ≠ 0x4001) := ⟨rfl, rfl, by simp⟩
theorem witness_StepKeepsTheInvariant : State.reset.inv = true ∧ step State.reset = .next { State.reset with pc := 0x3001 } :=
  ⟨by decide, rfl⟩
theorem witness_ResetMeetsTheInvariant : ({ Config.default with loadOrigin := 0xFFFE } : Config).wf = true := by decide
theorem witness_HiddenState : Alike State.reset { State.reset with mem := [(0xFE00, 0xBEEF)], out := [0x41], ir := 0x1234 } ∧
    step State.reset = .next { State.reset with pc := 0x3001 } := by
  refine ⟨⟨rfl, ?_⟩, rfl⟩
  intro a ha
  have h : a.toNat ≠ 0xFE00 := fun e => ha.1 (BitVec.eq_of_toNat_eq e)
  simp [Memory.read, h.symm, State.reset, State.powerOn]

theorem witness_ArrivalBetweenTwoPolls :
    ({ at_ 0xFE00 [] with cfg.kbsrIdle := 0xFE00, kbd := { queue := [], arrivals := [[], [0x7A]] } } : State).pc +
      (0 : BitVec 9).signExtend 16 = 0xFE00 ∧
    ({ at_ 0xFE00 [] with cfg.kbsrIdle := 0xFE00, kbd := { queue := [], arrivals := [[], [0x7A]] } } : State).kbd =
      { queue := [], arrivals := [] :: (0x7A :: []) :: [] } := by decide

end Sys2Proof.Tests
end

section
/-! SUPPORT. The field extensions of 00_scope.md R8, value and bits: `sext` for every width up to 16, `zext` of a byte;
the statement of the family 00_scope is made of them. -/

namespace Sys2Proof.Machine

/-! ### Sign extension -/

theorem toNat_sext {n : Nat} (hn : n ≤ 16) (v : BitVec n) :
    (sext v).toNat = if v.getLsbD (n - 1) = true then v.toNat + (0xFFFF - (2 ^ n - 1)) else v.toNat := by
  -- The library's addend for a set sign is `2^16 - 2^n`; R8 writes it as `0xFFFF - (2^n - 1)`.
  have hadd : 2 ^ 16 - 2 ^ n = 0xFFFF - (2 ^ n - 1) := by
    have := Nat.two_pow_pos n
    omega
  rw [sext, BitVec.toNat_signExtend, BitVec.toNat_setWidth_of_le hn, BitVec.msb_eq_getLsbD_last, hadd]
  split <;> rfl

theorem getLsbD_sext_of_lt {n i : Nat} (hn : n ≤ 16) (hi : i < n) (v : BitVec n) :
    (sext v).getLsbD i = v.getLsbD i := by
  have hi16 : i < 16 := by omega
  rw [sext, BitVec.getLsbD_signExtend, if_pos hi, decide_eq_true hi16, Bool.true_and]

theorem getLsbD_sext_of_ge {n i : Nat} (hi : n ≤ i) (hi16 : i < 16) (v : BitVec n) :
    (sext v).getLsbD i = v.getLsbD (n - 1) := by
  rw [sext, BitVec.getLsbD_signExtend, if_neg (Nat.not_lt.mpr hi), decide_eq_true hi16, Bool.true_and,
    BitVec.msb_eq_getLsbD_last]

/-! ### Zero extension -/

@[simp] theorem toNat_zext (v : BitVec 8) : (zext v).toNat = v.toNat :=
  BitVec.toNat_setWidth_of_le (by decide)

theorem getLsbD_zext_of_ge {i : Nat} (hi : 8 ≤ i) (v : BitVec 8) : (zext v).getLsbD i = false := by
  rw [zext, BitVec.getLsbD_setWidth, BitVec.getLsbD_of_ge v i hi, Bool.and_false]

/-! ### The statement -/

/-- Settles O7: the four field widths are at most 16, so the rules for every such width apply. -/
theorem signExtensionFillsTheHighBits : Obligations.SignExtensionFillsTheHighBits := by
  unfold Obligations.SignExtensionFillsTheHighBits
  refine ⟨fun N hN v => ?_, by decide, by decide, fun v => ⟨toNat_zext v, fun _ hi => getLsbD_zext_of_ge hi v⟩⟩
  have hN16 : N ≤ 16 := by omega
  exact ⟨toNat_sext hN16 v, fun _ hi => getLsbD_sext_of_lt hN16 hi v, fun _ hi hi16 => getLsbD_sext_of_ge hi hi16 v⟩

end Sys2Proof.Machine
end

section
/-! SUPPORT. What one `MemWrite` does to the whole state (20_memory.md R52); the statement of the family 20_memory is
this lemma, and the store forms of 43_load_store.md end in it. -/

namespace Sys2Proof.Machine

open Sys2Proof.Claims

/-- The memory laws give the written cell and the other cells; `mem` is the only field a write touches, which gives the
frame. -/
theorem storesWord_memWrite (s : State) (a v : Word) : StoresWord a v s (s.memWrite a v) := by
  have hcell : (s.memWrite a v).mem.read a.toNat = v := Memory.read_write_self s.mem a.toNat v
  have hothers : ∀ b : Nat, b ≠ a.toNat → (s.memWrite a v).mem.read b = s.mem.read b :=
    fun _ hb => Memory.read_write_of_ne s.mem v hb
  have hregs : SameRegsBut [] s (s.memWrite a v) := fun r _ => State.reg_memWrite s r a v
  have hconsole : SameConsole s (s.memWrite a v) := ⟨State.kbd_memWrite s a v, State.out_memWrite s a v⟩
  have hrun : SameRun s (s.memWrite a v) := ⟨State.runState_memWrite s a v, State.haltCause_memWrite s a v⟩
  have hinputs : SameInputs s (s.memWrite a v) :=
    ⟨State.ir_memWrite s a v, State.stopReq_memWrite s a v, State.env_memWrite s a v, State.cfg_memWrite s a v⟩
  exact ⟨hcell, hothers, hregs, State.cond_memWrite s a v, State.pc_memWrite s a v, hconsole, hrun, hinputs⟩

/-- Settles O10: the rule of one `MemWrite`, at every address. -/
theorem memWriteStoresExactlyOneWord : Obligations.MemWriteStoresExactlyOneWord := by
  unfold Obligations.MemWriteStoresExactlyOneWord
  exact storesWord_memWrite

end Sys2Proof.Machine
end

section
/-! SUPPORT. A destination write as one rule on the whole state (10_state.md R20, R26), and the row of the opcode table
that a Word matches, read as the decoder's fields; the operate statements of 41_operate.md are made of the two. -/

namespace Sys2Proof.Machine

open Sys2Proof.Claims

/-! ### The destination write -/

/-- Bit 15 is the sign of the signed reading (00_scope.md R7). -/
theorem getLsbD_fifteen_iff (v : Word) : v.getLsbD 15 = true ↔ v.toInt < 0 := by
  have hmsb : v.getLsbD 15 = v.msb := (BitVec.msb_eq_getLsbD_last v).symm
  rw [hmsb, BitVec.msb_eq_toInt, decide_eq_true_iff]

/-- R26: `setcc` sets the flag of the signed reading. -/
theorem flagFor_condOf (v : Word) : FlagFor v (condOf v) := by
  have hzero : v = 0x0000 ↔ v.toInt = 0 := BitVec.toInt_inj.symm
  refine ⟨condOf_eq_zero_iff v, (condOf_eq_negative_iff v).trans (getLsbD_fifteen_iff v), ?_⟩
  rw [condOf_eq_positive_iff, ne_eq, hzero, Bool.eq_false_iff, ne_eq, getLsbD_fifteen_iff]
  omega

/-- `R[dr] <- v; setcc(v)` is the whole effect of `writeDest`; the loads and LEA end in it too. -/
theorem writesDest_writeDest (s : State) (dr : Reg) (v : Word) : WritesDest dr v s (s.writeDest dr v) := by
  have hdest : (s.writeDest dr v).reg dr = v := State.reg_setReg_self s dr v
  have hothers : SameRegsBut [dr] s (s.writeDest dr v) :=
    fun _ hr => State.reg_setReg_of_ne s v (List.ne_of_not_mem_cons hr)
  have hconsole : SameConsole s (s.writeDest dr v) := ⟨State.kbd_writeDest s dr v, State.out_writeDest s dr v⟩
  have hrun : SameRun s (s.writeDest dr v) := ⟨State.runState_writeDest s dr v, State.haltCause_writeDest s dr v⟩
  have hinputs : SameInputs s (s.writeDest dr v) :=
    ⟨State.ir_writeDest s dr v, State.stopReq_writeDest s dr v, State.env_writeDest s dr v, State.cfg_writeDest s dr v⟩
  have hmem : SameMem s (s.writeDest dr v) := fun _ => by rw [State.mem_writeDest]
  exact ⟨hdest, flagFor_condOf v, hothers, State.pc_writeDest s dr v, hmem, hconsole, hrun, hinputs⟩

/-! ### What a match under a mask says of the fields -/

section
variable {w mask value : Word} (h : w &&& mask = value)
include h

theorem opcode_of_match (hmask : Field.opcode mask = BitVec.allOnes 4) : Field.opcode w = Field.opcode value := by
  have hand : Field.opcode (w &&& mask) = Field.opcode w &&& Field.opcode mask := BitVec.extractLsb'_and
  rw [← h, hand, hmask, BitVec.and_allOnes]

theorem getLsbD_of_match {i : Nat} (hmask : mask.getLsbD i = true) : w.getLsbD i = value.getLsbD i := by
  rw [← h, BitVec.getLsbD_and, hmask, Bool.and_true]

end

/-! ### The decoder and the dispatch at the operate forms -/

section
variable {w : Word}

theorem decode_addReg (hop : Field.opcode w = Opcode.add.bits) (hmode : Field.immMode w = false) :
    decode w = .addReg (Field.dr w) (Field.sr1 w) (Field.sr2 w) := by
  simp only [decode, hop, Opcode.ofBits_bits, hmode]

theorem decode_addImm (hop : Field.opcode w = Opcode.add.bits) (hmode : Field.immMode w = true) :
    decode w = .addImm (Field.dr w) (Field.sr1 w) (Field.imm5 w) := by
  simp only [decode, hop, Opcode.ofBits_bits, hmode]

theorem decode_andReg (hop : Field.opcode w = Opcode.and.bits) (hmode : Field.immMode w = false) :
    decode w = .andReg (Field.dr w) (Field.sr1 w) (Field.sr2 w) := by
  simp only [decode, hop, Opcode.ofBits_bits, hmode]

theorem decode_andImm (hop : Field.opcode w = Opcode.and.bits) (hmode : Field.immMode w = true) :
    decode w = .andImm (Field.dr w) (Field.sr1 w) (Field.imm5 w) := by
  simp only [decode, hop, Opcode.ofBits_bits, hmode]

theorem decode_not (hop : Field.opcode w = Opcode.not.bits) : decode w = .not (Field.dr w) (Field.sr1 w) := by
  simp only [decode, hop, Opcode.ofBits_bits]

end

section
variable (dr sr1 sr2 : Reg) (imm5 : BitVec 5) (s : State)

theorem exec_addReg : exec (.addReg dr sr1 sr2) s = .next (s.writeDest dr (s.reg sr1 + s.reg sr2)) := rfl
theorem exec_addImm : exec (.addImm dr sr1 imm5) s = .next (s.writeDest dr (s.reg sr1 + sext imm5)) := rfl
theorem exec_andReg : exec (.andReg dr sr1 sr2) s = .next (s.writeDest dr (s.reg sr1 &&& s.reg sr2)) := rfl
theorem exec_andImm : exec (.andImm dr sr1 imm5) s = .next (s.writeDest dr (s.reg sr1 &&& sext imm5)) := rfl
theorem exec_not : exec (.not dr sr1) s = .next (s.writeDest dr (~~~s.reg sr1)) := rfl

end

/-! ### The statements: the row fixes opcode and mode bit, and the meaning is one destination write -/

/-- Settles O13: row 0x1000 under 0xF020 and the sum of two registers (R140). -/
theorem addRegister : Obligations.AddRegister := by
  unfold Obligations.AddRegister
  constructor
  · intro w h
    exact decode_addReg (opcode_of_match h rfl) (getLsbD_of_match h rfl)
  · intro dr sr1 sr2 s
    exact ⟨_, exec_addReg dr sr1 sr2 s, writesDest_writeDest s dr _⟩

/-- Settles O14: row 0x1020 under 0xF020 and the sum with the sign-extended immediate (R141). -/
theorem addImmediate : Obligations.AddImmediate := by
  unfold Obligations.AddImmediate
  constructor
  · intro w h
    exact decode_addImm (opcode_of_match h rfl) (getLsbD_of_match h rfl)
  · intro dr sr1 imm5 s
    exact ⟨_, exec_addImm dr sr1 imm5 s, writesDest_writeDest s dr _⟩

/-- Settles O15: row 0x5000 under 0xF020 and the AND of two registers (R142). -/
theorem andRegister : Obligations.AndRegister := by
  unfold Obligations.AndRegister
  constructor
  · intro w h
    exact decode_andReg (opcode_of_match h rfl) (getLsbD_of_match h rfl)
  · intro dr sr1 sr2 s
    exact ⟨_, exec_andReg dr sr1 sr2 s, writesDest_writeDest s dr _⟩

/-- Settles O16: row 0x5020 under 0xF020 and the AND with the sign-extended immediate (R143). -/
theorem andImmediate : Obligations.AndImmediate := by
  unfold Obligations.AndImmediate
  constructor
  · intro w h
    exact decode_andImm (opcode_of_match h rfl) (getLsbD_of_match h rfl)
  · intro dr sr1 imm5 s
    exact ⟨_, exec_andImm dr sr1 imm5 s, writesDest_writeDest s dr _⟩

/-- Settles O17: row 0x9000 under 0xF000, with no mode bit to read, and the complement (R144). -/
theorem notComplements : Obligations.NotComplements := by
  unfold Obligations.NotComplements
  constructor
  · intro w h
    exact decode_not (opcode_of_match h rfl)
  · intro dr sr1 s
    exact ⟨_, exec_not dr sr1 s, writesDest_writeDest s dr _⟩

end Sys2Proof.Machine
end

section
/-! SUPPORT. The control transfers of 42_control.md: the decoder and the dispatch at JMP and JSR, and the jump with a
link as one rule on the whole state (10_state.md R24, R25), which is the effect of JSRR too. -/

namespace Sys2Proof.Machine

open Sys2Proof.Claims

/-! ### The jump with a link -/

/-- R22, R25: a jump with a link writes R7 and the PC alone; the register law gives the two clauses on registers, and
every other field is one that neither update touches. -/
theorem link_setPc_frame (s : State) (target : Word) :
    (s.link.setPc target).reg 7 = s.pc ∧ (s.link.setPc target).pc = target ∧ SameRegsBut [7] s (s.link.setPc target) ∧
      (s.link.setPc target).cond = s.cond ∧ SameMem s (s.link.setPc target) ∧ SameConsole s (s.link.setPc target) ∧
      SameRun s (s.link.setPc target) ∧ SameInputs s (s.link.setPc target) := by
  have hlink : (s.link.setPc target).reg 7 = s.pc := State.reg_setReg_self s 7 s.pc
  have hothers : SameRegsBut [7] s (s.link.setPc target) :=
    fun _ hr => State.reg_setReg_of_ne s s.pc (List.ne_of_not_mem_cons hr)
  exact ⟨hlink, rfl, hothers, rfl, fun _ => rfl, ⟨rfl, rfl⟩, ⟨rfl, rfl⟩, rfl, rfl, rfl, rfl⟩

/-! ### The decoder and the dispatch at JMP and JSR -/

theorem decode_jmp {w : Word} (hop : Field.opcode w = Opcode.jmp.bits) : decode w = .jmp (Field.sr1 w) := by
  simp only [decode, hop, Opcode.ofBits_bits]

theorem decode_jsr {w : Word} (hop : Field.opcode w = Opcode.jsr.bits) (hlong : Field.jsrLong w = true) :
    decode w = .jsr (Field.offset11 w) := by
  simp only [decode, hop, Opcode.ofBits_bits, hlong]

theorem exec_jmp (baseR : Reg) (s : State) : exec (.jmp baseR) s = .next (s.setPc (s.reg baseR)) := rfl

theorem exec_jsr (offset11 : BitVec 11) (s : State) :
    exec (.jsr offset11) s = .next (s.link.setPc (s.pc + sext offset11)) := rfl

/-! ### The statements -/

/-- Settles O19: row 0xC000 under 0xF000, and one write of the PC (R151). -/
theorem jumpToRegister : Obligations.JumpToRegister := by
  unfold Obligations.JumpToRegister
  constructor
  · intro w h
    exact decode_jmp (opcode_of_match h rfl)
  · intro baseR s
    exact exec_jmp baseR s

/-- Settles O20: row 0x4800 under 0xF800, bit 11 being the long-form bit, and one jump with a link whose target is
taken from the PC before the link (R152). -/
theorem jumpToSubroutineByOffset : Obligations.JumpToSubroutineByOffset := by
  unfold Obligations.JumpToSubroutineByOffset
  constructor
  · intro w h
    exact decode_jsr (opcode_of_match h rfl) (getLsbD_of_match h rfl)
  · intro offset11 s
    exact ⟨_, exec_jsr offset11 s, link_setPc_frame s (s.pc + sext offset11)⟩

end Sys2Proof.Machine
end

section
/-! SUPPORT. The loads and stores of 43_load_store.md: a read that the specification says completes is the model's
`memRead` (20_memory.md R51, R53, R54, R70), the decoder and the dispatch at the seven forms, and their statements. -/

namespace Sys2Proof.Machine

open Sys2Proof.Claims

/-! ### A read that completes -/

/-- R70: empty batches are passed over until one brings a byte. -/
theorem Keyboard.await_replicate_nil (n : Nat) (b : Byte) (queue : List Byte) (later : List (List Byte)) :
    Keyboard.await [] (List.replicate n [] ++ (b :: queue) :: later) = some (b, { queue := queue, arrivals := later }) := by
  induction n with
  | zero => exact Keyboard.await_cons b queue later
  | succ n ih => exact ih

theorem Keyboard.await_of_byteGives {k k' : Keyboard} {b : Byte} (h : ByteGives k b k') :
    Keyboard.await k.queue k.arrivals = some (b, k') := by
  obtain ⟨hqueue, harrivals⟩ | ⟨hqueue, n, harrivals⟩ := h
  · rw [hqueue, ← harrivals, Keyboard.await_cons]
  · rw [hqueue, harrivals, Keyboard.await_replicate_nil]

/-- The three ways a read completes, at the status address, at the data address and in plain storage. -/
theorem State.memRead_of_readGives {s : State} {a v : Word} {k : Keyboard} (h : ReadGives s a v k) :
    s.memRead a = some (v, s.setKbd k) := by
  obtain ⟨ha, rfl, rfl⟩ | ⟨hks, hkd, b, hb, rfl⟩ | ⟨⟨hks, hkd⟩, rfl, rfl⟩ := h
  · have hheard : s.kbd.hear = Heard s.kbd := Keyboard.hear_eq s.kbd
    rw [← hheard]
    exact State.memRead_kbsr ha
  · exact State.memRead_kbdr hks hkd (Keyboard.await_of_byteGives hb)
  · exact State.memRead_plain hks hkd

/-! ### The decoder at the load and store forms -/

section
variable {w : Word}

theorem decode_ld (hop : Field.opcode w = Opcode.ld.bits) : decode w = .ld (Field.dr w) (Field.offset9 w) := by
  simp only [decode, hop, Opcode.ofBits_bits]

theorem decode_ldi (hop : Field.opcode w = Opcode.ldi.bits) : decode w = .ldi (Field.dr w) (Field.offset9 w) := by
  simp only [decode, hop, Opcode.ofBits_bits]

theorem decode_ldr (hop : Field.opcode w = Opcode.ldr.bits) :
    decode w = .ldr (Field.dr w) (Field.sr1 w) (Field.offset6 w) := by
  simp only [decode, hop, Opcode.ofBits_bits]

theorem decode_lea (hop : Field.opcode w = Opcode.lea.bits) : decode w = .lea (Field.dr w) (Field.offset9 w) := by
  simp only [decode, hop, Opcode.ofBits_bits]

theorem decode_st (hop : Field.opcode w = Opcode.st.bits) : decode w = .st (Field.dr w) (Field.offset9 w) := by
  simp only [decode, hop, Opcode.ofBits_bits]

theorem decode_sti (hop : Field.opcode w = Opcode.sti.bits) : decode w = .sti (Field.dr w) (Field.offset9 w) := by
  simp only [decode, hop, Opcode.ofBits_bits]

theorem decode_str (hop : Field.opcode w = Opcode.str.bits) :
    decode w = .str (Field.dr w) (Field.sr1 w) (Field.offset6 w) := by
  simp only [decode, hop, Opcode.ofBits_bits]

end

/-! ### The dispatch at the load and store forms, where every read completes -/

section
variable {s u u' : State} {ea v : Word} (r baseR : Reg) (offset6 : BitVec 6) (offset9 : BitVec 9)

theorem exec_ld (h : s.memRead (s.pc + sext offset9) = some (v, u)) :
    exec (.ld r offset9) s = .next (u.writeDest r v) :=
  execLd_eq_next_iff.mpr ⟨v, u, h, rfl⟩

theorem exec_ldi (hptr : s.memRead (s.pc + sext offset9) = some (ea, u)) (hdata : u.memRead ea = some (v, u')) :
    exec (.ldi r offset9) s = .next (u'.writeDest r v) :=
  execLdi_eq_next_iff.mpr ⟨ea, u, v, u', hptr, hdata, rfl⟩

theorem exec_ldr (h : s.memRead (s.reg baseR + sext offset6) = some (v, u)) :
    exec (.ldr r baseR offset6) s = .next (u.writeDest r v) :=
  execLdr_eq_next_iff.mpr ⟨v, u, h, rfl⟩

theorem exec_sti (h : s.memRead (s.pc + sext offset9) = some (ea, u)) :
    exec (.sti r offset9) s = .next (u.memWrite ea (s.reg r)) :=
  execSti_eq_next_iff.mpr ⟨ea, u, h, rfl⟩

end

section
variable (r baseR : Reg) (offset6 : BitVec 6) (offset9 : BitVec 9) (s : State)

theorem exec_lea : exec (.lea r offset9) s = .next (s.writeDest r (s.pc + sext offset9)) := rfl
theorem exec_st : exec (.st r offset9) s = .next (s.memWrite (s.pc + sext offset9) (s.reg r)) := rfl
theorem exec_str : exec (.str r baseR offset6) s = .next (s.memWrite (s.reg baseR + sext offset6) (s.reg r)) := rfl

end

/-! ### The statements: a load is its reads and one destination write, a store its reads and one memory write -/

/-- Settles O22: row 0x2000 under 0xF000, and one read at the PC-relative address (R160). -/
theorem loadPcRelative : Obligations.LoadPcRelative := by
  unfold Obligations.LoadPcRelative
  constructor
  · intro w h
    exact decode_ld (opcode_of_match h rfl)
  · intro dr offset9 s v k hread
    exact ⟨_, exec_ld dr offset9 (State.memRead_of_readGives hread), writesDest_writeDest _ dr v⟩

/-- Settles O23: row 0xA000 under 0xF000, and two reads, the second from the console input that the first leaves
(R161). -/
theorem loadIndirect : Obligations.LoadIndirect := by
  unfold Obligations.LoadIndirect
  constructor
  · intro w h
    exact decode_ldi (opcode_of_match h rfl)
  · intro dr offset9 s ea v k k' hptr hdata
    exact ⟨_, exec_ldi dr offset9 (State.memRead_of_readGives hptr) (State.memRead_of_readGives hdata),
      writesDest_writeDest _ dr v⟩

/-- Settles O24: row 0x6000 under 0xF000, and one read at the base register plus the offset (R162). -/
theorem loadBaseOffset : Obligations.LoadBaseOffset := by
  unfold Obligations.LoadBaseOffset
  constructor
  · intro w h
    exact decode_ldr (opcode_of_match h rfl)
  · intro dr baseR offset6 s v k hread
    exact ⟨_, exec_ldr dr baseR offset6 (State.memRead_of_readGives hread), writesDest_writeDest _ dr v⟩

/-- Settles O25: row 0xE000 under 0xF000, and the PC-relative address itself, with no read (R163). -/
theorem loadEffectiveAddress : Obligations.LoadEffectiveAddress := by
  unfold Obligations.LoadEffectiveAddress
  constructor
  · intro w h
    exact decode_lea (opcode_of_match h rfl)
  · intro dr offset9 s
    exact ⟨_, exec_lea dr offset9 s, writesDest_writeDest s dr _⟩

/-- Settles O26: row 0x3000 under 0xF000, and one write at the PC-relative address (R164). -/
theorem storePcRelative : Obligations.StorePcRelative := by
  unfold Obligations.StorePcRelative
  constructor
  · intro w h
    exact decode_st (opcode_of_match h rfl)
  · intro sr offset9 s
    exact ⟨_, exec_st sr offset9 s, storesWord_memWrite s _ _⟩

/-- Settles O27: row 0xB000 under 0xF000, and the pointer read, which leaves SR and memory as they were, before the
write (R165). -/
theorem storeIndirect : Obligations.StoreIndirect := by
  unfold Obligations.StoreIndirect
  constructor
  · intro w h
    exact decode_sti (opcode_of_match h rfl)
  · intro sr offset9 s ea k hptr
    exact ⟨_, exec_sti sr offset9 (State.memRead_of_readGives hptr), storesWord_memWrite _ ea _⟩

/-- Settles O28: row 0x7000 under 0xF000, and one write at the base register plus the offset (R166). -/
theorem storeBaseOffset : Obligations.StoreBaseOffset := by
  unfold Obligations.StoreBaseOffset
  constructor
  · intro w h
    exact decode_str (opcode_of_match h rfl)
  · intro sr baseR offset6 s
    exact ⟨_, exec_str sr baseR offset6 s, storesWord_memWrite s _ _⟩

end Sys2Proof.Machine
end

section
/-! SUPPORT. The decoder and the encoder of 30_encoding.md on whole Words: how the decoder answers, form by form, what
it gives back of a canonical Word, and which bits of a Word it answers from; the encoding statements are made of
these. -/

namespace Sys2Proof.Machine

/-! ### The forms that the families before leave out -/

section
variable {w : Word}

theorem decode_br (hop : Field.opcode w = Opcode.br.bits) :
    decode w = .br (Field.n w) (Field.z w) (Field.p w) (Field.offset9 w) := by
  simp only [decode, hop, Opcode.ofBits_bits]

theorem decode_jsrr (hop : Field.opcode w = Opcode.jsr.bits) (hlong : Field.jsrLong w = false) :
    decode w = .jsrr (Field.sr1 w) := by
  simp only [decode, hop, Opcode.ofBits_bits, hlong]

theorem decode_trap (hop : Field.opcode w = Opcode.trap.bits) : decode w = .trap (Field.trapvect8 w) := by
  simp only [decode, hop, Opcode.ofBits_bits]

theorem decode_rti (hop : Field.opcode w = Opcode.rti.bits) : decode w = .rti := by
  simp only [decode, hop, Opcode.ofBits_bits]

theorem decode_res (hop : Field.opcode w = Opcode.res.bits) : decode w = .res := by
  simp only [decode, hop, Opcode.ofBits_bits]

end

/-! ### The decoder's answer, one case per form -/

/-- The opcode and mode bit under which a Word decodes to each form, with the fields the form keeps (R82, R83). -/
inductive DecodesTo (w : Word) : Instr → Prop
  | addReg (hop : Field.opcode w = Opcode.add.bits) (hmode : Field.immMode w = false) :
      DecodesTo w (.addReg (Field.dr w) (Field.sr1 w) (Field.sr2 w))
  | addImm (hop : Field.opcode w = Opcode.add.bits) (hmode : Field.immMode w = true) :
      DecodesTo w (.addImm (Field.dr w) (Field.sr1 w) (Field.imm5 w))
  | andReg (hop : Field.opcode w = Opcode.and.bits) (hmode : Field.immMode w = false) :
      DecodesTo w (.andReg (Field.dr w) (Field.sr1 w) (Field.sr2 w))
  | andImm (hop : Field.opcode w = Opcode.and.bits) (hmode : Field.immMode w = true) :
      DecodesTo w (.andImm (Field.dr w) (Field.sr1 w) (Field.imm5 w))
  | not (hop : Field.opcode w = Opcode.not.bits) : DecodesTo w (.not (Field.dr w) (Field.sr1 w))
  | br (hop : Field.opcode w = Opcode.br.bits) :
      DecodesTo w (.br (Field.n w) (Field.z w) (Field.p w) (Field.offset9 w))
  | jmp (hop : Field.opcode w = Opcode.jmp.bits) : DecodesTo w (.jmp (Field.sr1 w))
  | jsr (hop : Field.opcode w = Opcode.jsr.bits) (hlong : Field.jsrLong w = true) :
      DecodesTo w (.jsr (Field.offset11 w))
  | jsrr (hop : Field.opcode w = Opcode.jsr.bits) (hlong : Field.jsrLong w = false) :
      DecodesTo w (.jsrr (Field.sr1 w))
  | ld (hop : Field.opcode w = Opcode.ld.bits) : DecodesTo w (.ld (Field.dr w) (Field.offset9 w))
  | ldi (hop : Field.opcode w = Opcode.ldi.bits) : DecodesTo w (.ldi (Field.dr w) (Field.offset9 w))
  | ldr (hop : Field.opcode w = Opcode.ldr.bits) :
      DecodesTo w (.ldr (Field.dr w) (Field.sr1 w) (Field.offset6 w))
  | lea (hop : Field.opcode w = Opcode.lea.bits) : DecodesTo w (.lea (Field.dr w) (Field.offset9 w))
  | st (hop : Field.opcode w = Opcode.st.bits) : DecodesTo w (.st (Field.dr w) (Field.offset9 w))
  | sti (hop : Field.opcode w = Opcode.sti.bits) : DecodesTo w (.sti (Field.dr w) (Field.offset9 w))
  | str (hop : Field.opcode w = Opcode.str.bits) :
      DecodesTo w (.str (Field.dr w) (Field.sr1 w) (Field.offset6 w))
  | trap (hop : Field.opcode w = Opcode.trap.bits) : DecodesTo w (.trap (Field.trapvect8 w))
  | rti (hop : Field.opcode w = Opcode.rti.bits) : DecodesTo w .rti
  | res (hop : Field.opcode w = Opcode.res.bits) : DecodesTo w .res

/-- The case split over the opcode map and the two mode bits, made once. -/
theorem decodesTo_decode (w : Word) : DecodesTo w (decode w) := by
  cases hop : Opcode.ofBits (Field.opcode w) <;> rw [Opcode.ofBits_eq_iff] at hop
  case add =>
    cases hmode : Field.immMode w with
    | false => exact decode_addReg hop hmode ▸ .addReg hop hmode
    | true => exact decode_addImm hop hmode ▸ .addImm hop hmode
  case and =>
    cases hmode : Field.immMode w with
    | false => exact decode_andReg hop hmode ▸ .andReg hop hmode
    | true => exact decode_andImm hop hmode ▸ .andImm hop hmode
  case jsr =>
    cases hlong : Field.jsrLong w with
    | false => exact decode_jsrr hop hlong ▸ .jsrr hop hlong
    | true => exact decode_jsr hop hlong ▸ .jsr hop hlong
  case not => exact decode_not hop ▸ .not hop
  case br => exact decode_br hop ▸ .br hop
  case jmp => exact decode_jmp hop ▸ .jmp hop
  case ld => exact decode_ld hop ▸ .ld hop
  case ldi => exact decode_ldi hop ▸ .ldi hop
  case ldr => exact decode_ldr hop ▸ .ldr hop
  case lea => exact decode_lea hop ▸ .lea hop
  case st => exact decode_st hop ▸ .st hop
  case sti => exact decode_sti hop ▸ .sti hop
  case str => exact decode_str hop ▸ .str hop
  case trap => exact decode_trap hop ▸ .trap hop
  case rti => exact decode_rti hop ▸ .rti hop
  case res => exact decode_res hop ▸ .res hop

/-! ### Decoding a canonical Word: each field of a format is read back where it was placed -/

section
variable (o : Opcode) (r sr1 sr2 : Reg) (imm5 : BitVec 5) (offset6 : BitVec 6) (offset9 : BitVec 9)

@[simp] theorem dr_encOpReg : Field.dr (encOpReg o r sr1 sr2) = r := by
  simp [Field.dr, encOpReg, BitVec.extractLsb'_or, extract_place_self, extract_place_disjoint]

@[simp] theorem sr1_encOpReg : Field.sr1 (encOpReg o r sr1 sr2) = sr1 := by
  simp [Field.sr1, encOpReg, BitVec.extractLsb'_or, extract_place_self, extract_place_disjoint]

@[simp] theorem sr2_encOpReg : Field.sr2 (encOpReg o r sr1 sr2) = sr2 := by
  simp [Field.sr2, encOpReg, BitVec.extractLsb'_or, extract_place_self, extract_place_disjoint]

@[simp] theorem immMode_encOpReg : Field.immMode (encOpReg o r sr1 sr2) = false := by
  simp [Field.immMode, encOpReg, getElem_place]

@[simp] theorem dr_encOpImm : Field.dr (encOpImm o r sr1 imm5) = r := by
  simp [Field.dr, encOpImm, BitVec.extractLsb'_or, extract_place_self, extract_place_disjoint]

@[simp] theorem sr1_encOpImm : Field.sr1 (encOpImm o r sr1 imm5) = sr1 := by
  simp [Field.sr1, encOpImm, BitVec.extractLsb'_or, extract_place_self, extract_place_disjoint]

@[simp] theorem imm5_encOpImm : Field.imm5 (encOpImm o r sr1 imm5) = imm5 := by
  simp [Field.imm5, encOpImm, BitVec.extractLsb'_or, extract_place_self, extract_place_disjoint]

@[simp] theorem immMode_encOpImm : Field.immMode (encOpImm o r sr1 imm5) = true := by
  simp [Field.immMode, encOpImm, getElem_place]

@[simp] theorem dr_encBase : Field.dr (encBase o r sr1 offset6) = r := by
  simp [Field.dr, encBase, BitVec.extractLsb'_or, extract_place_self, extract_place_disjoint]

@[simp] theorem sr1_encBase : Field.sr1 (encBase o r sr1 offset6) = sr1 := by
  simp [Field.sr1, encBase, BitVec.extractLsb'_or, extract_place_self, extract_place_disjoint]

@[simp] theorem offset6_encBase : Field.offset6 (encBase o r sr1 offset6) = offset6 := by
  simp [Field.offset6, encBase, BitVec.extractLsb'_or, extract_place_self, extract_place_disjoint]

@[simp] theorem dr_encPcRel : Field.dr (encPcRel o r offset9) = r := by
  simp [Field.dr, encPcRel, BitVec.extractLsb'_or, extract_place_self, extract_place_disjoint]

@[simp] theorem offset9_encPcRel : Field.offset9 (encPcRel o r offset9) = offset9 := by
  simp [Field.offset9, encPcRel, BitVec.extractLsb'_or, extract_place_self, extract_place_disjoint]

end

/-- The canonical Word carries the form's opcode and mode bit, so the decoder takes that form (R82, R83). -/
theorem decode_encode (i : Instr) : decode (encode i) = i := by
  cases i with
  | addReg dr sr1 sr2 => rw [decode_addReg (Laws.EncodeOpcode.addReg dr sr1 sr2) (by simp [encode])]; simp [encode]
  | addImm dr sr1 imm5 => rw [decode_addImm (Laws.EncodeOpcode.addImm dr sr1 imm5) (by simp [encode])]; simp [encode]
  | andReg dr sr1 sr2 => rw [decode_andReg (Laws.EncodeOpcode.andReg dr sr1 sr2) (by simp [encode])]; simp [encode]
  | andImm dr sr1 imm5 => rw [decode_andImm (Laws.EncodeOpcode.andImm dr sr1 imm5) (by simp [encode])]; simp [encode]
  | not dr sr1 =>
    rw [decode_not (Laws.EncodeOpcode.not dr sr1)]
    simp [encode, Field.dr, Field.sr1, BitVec.extractLsb'_or, extract_place_self, extract_place_disjoint]
  | br n z p offset9 =>
    rw [decode_br (Laws.EncodeOpcode.br n z p offset9)]
    simp [encode, Field.n, Field.z, Field.p, Field.offset9, getElem_place, Opcode.bits, BitVec.extractLsb'_or,
      extract_place_self, extract_place_disjoint]
  | jmp baseR =>
    rw [decode_jmp (Laws.EncodeOpcode.jmp baseR)]
    simp [encode, Field.sr1, BitVec.extractLsb'_or, extract_place_self, extract_place_disjoint]
  | jsr offset11 =>
    rw [decode_jsr (Laws.EncodeOpcode.jsr offset11) (by simp [encode, Field.jsrLong, getElem_place])]
    simp [encode, Field.offset11, BitVec.extractLsb'_or, extract_place_self, extract_place_disjoint]
  | jsrr baseR =>
    rw [decode_jsrr (Laws.EncodeOpcode.jsrr baseR) (by simp [encode, Field.jsrLong, getElem_place])]
    simp [encode, Field.sr1, BitVec.extractLsb'_or, extract_place_self, extract_place_disjoint]
  | ld dr offset9 => rw [decode_ld (Laws.EncodeOpcode.ld dr offset9)]; simp [encode]
  | ldi dr offset9 => rw [decode_ldi (Laws.EncodeOpcode.ldi dr offset9)]; simp [encode]
  | ldr dr baseR offset6 => rw [decode_ldr (Laws.EncodeOpcode.ldr dr baseR offset6)]; simp [encode]
  | lea dr offset9 => rw [decode_lea (Laws.EncodeOpcode.lea dr offset9)]; simp [encode]
  | st sr offset9 => rw [decode_st (Laws.EncodeOpcode.st sr offset9)]; simp [encode]
  | sti sr offset9 => rw [decode_sti (Laws.EncodeOpcode.sti sr offset9)]; simp [encode]
  | str sr baseR offset6 => rw [decode_str (Laws.EncodeOpcode.str sr baseR offset6)]; simp [encode]
  | trap v =>
    rw [decode_trap (Laws.EncodeOpcode.trap v)]
    simp [encode, Field.trapvect8, BitVec.extractLsb'_or, extract_place_self, extract_place_disjoint]
  | rti => exact decode_rti Laws.EncodeOpcode.rti
  | res => exact decode_res Laws.EncodeOpcode.res

/-- Settles O1: no field is lost between the canonical Word and its decoding, form by form. -/
theorem decodeEncodeRoundTrip : Obligations.DecodeEncodeRoundTrip := by
  unfold Obligations.DecodeEncodeRoundTrip
  exact decode_encode

/-! ### The rows of the opcode table -/

/-- Reading a field and placing it back keeps the bits of the field. -/
theorem place_extract {lo n : Nat} (w : Word) :
    place (w.extractLsb' lo n) lo = w &&& place (BitVec.allOnes n) lo := by
  ext i hi
  rw [BitVec.getElem_and, getElem_place _ _ _ hi, getElem_place _ _ _ hi, BitVec.getLsbD_extractLsb',
    BitVec.getLsbD_allOnes]
  by_cases hlo : i < lo
  · simp [hlo]
  · have : lo + (i - lo) = i := by omega
    simp [hlo, this, Bool.and_comm, hi]

/-- The single-bit case of `place_extract`. -/
theorem place_bit {lo : Nat} (w : Word) : place (bit (w.getLsbD lo)) lo = w &&& place (1 : BitVec 1) lo := by
  ext i hi
  rw [BitVec.getElem_and, getElem_place _ _ _ hi, getElem_place _ _ _ hi, getLsbD_bit]
  by_cases hlo : i < lo
  · simp [hlo]
  · by_cases heq : i = lo
    · subst heq; simp [hi]
    · have : i - lo ≠ 0 := by omega
      simp [hlo, this]

section
variable (w : Word)

theorem place_opcode : place (Field.opcode w) 12 = w &&& 0xF000 := place_extract w
theorem place_dr : place (Field.dr w) 9 = w &&& 0x0E00 := place_extract w
theorem place_sr1 : place (Field.sr1 w) 6 = w &&& 0x01C0 := place_extract w
theorem place_sr2 : place (Field.sr2 w) 0 = w &&& 0x0007 := place_extract w
theorem place_imm5 : place (Field.imm5 w) 0 = w &&& 0x001F := place_extract w
theorem place_offset6 : place (Field.offset6 w) 0 = w &&& 0x003F := place_extract w
theorem place_offset9 : place (Field.offset9 w) 0 = w &&& 0x01FF := place_extract w
theorem place_offset11 : place (Field.offset11 w) 0 = w &&& 0x07FF := place_extract w
theorem place_trapvect8 : place (Field.trapvect8 w) 0 = w &&& 0x00FF := place_extract w
theorem place_immMode : place (bit (Field.immMode w)) 5 = w &&& 0x0020 := place_bit w
theorem place_jsrLong : place (bit (Field.jsrLong w)) 11 = w &&& 0x0800 := place_bit w
theorem place_n : place (bit (Field.n w)) 11 = w &&& 0x0800 := place_bit w
theorem place_z : place (bit (Field.z w)) 10 = w &&& 0x0400 := place_bit w
theorem place_p : place (bit (Field.p w)) 9 = w &&& 0x0200 := place_bit w

end

section
variable {w : Word} {o : Opcode}

/-- The mask of a row that names the opcode alone. -/
theorem and_opcodeMask (hop : Field.opcode w = o.bits) : w &&& 0xF000 = place o.bits 12 := by
  rw [← hop, place_opcode]

/-- The mask of a row that names the opcode and the mode bit of ADD and AND. -/
theorem and_immModeMask {b : Bool} (hop : Field.opcode w = o.bits) (hmode : Field.immMode w = b) :
    w &&& 0xF020 = place o.bits 12 ||| place (bit b) 5 := by
  rw [← hop, ← hmode, place_opcode, place_immMode, ← BitVec.and_or_distrib_left]
  rfl

/-- The mask of a row that names the opcode and the long-form bit of JSR and JSRR. -/
theorem and_jsrLongMask {b : Bool} (hop : Field.opcode w = o.bits) (hlong : Field.jsrLong w = b) :
    w &&& 0xF800 = place o.bits 12 ||| place (bit b) 11 := by
  rw [← hop, ← hlong, place_opcode, place_jsrLong, ← BitVec.and_or_distrib_left]
  rfl

end

/-- A Word matches the row of the form it decodes to. -/
theorem row_holds_of_decodesTo {w : Word} {i : Instr} (h : DecodesTo w i) : i.row.holds w = true := by
  cases h <;> simp only [Row.holds, Instr.row, beq_iff_eq]
  case addReg hop hmode => exact and_immModeMask hop hmode
  case addImm hop hmode => exact and_immModeMask hop hmode
  case andReg hop hmode => exact and_immModeMask hop hmode
  case andImm hop hmode => exact and_immModeMask hop hmode
  case jsr hop hlong => exact and_jsrLongMask hop hlong
  case jsrr hop hlong => exact and_jsrLongMask hop hlong
  all_goals
    rename_i hop
    rw [and_opcodeMask hop]
    rfl

/-- A Word that matches a form's row decodes to a form of that row. -/
theorem row_decode_of_holds {w : Word} {i : Instr} (h : i.row.holds w = true) : (decode w).row = i.row := by
  cases i <;> simp only [Row.holds, Instr.row, beq_iff_eq] at h
  case addReg => rw [decode_addReg (opcode_of_match h rfl) (getLsbD_of_match h rfl)]; rfl
  case addImm => rw [decode_addImm (opcode_of_match h rfl) (getLsbD_of_match h rfl)]; rfl
  case andReg => rw [decode_andReg (opcode_of_match h rfl) (getLsbD_of_match h rfl)]; rfl
  case andImm => rw [decode_andImm (opcode_of_match h rfl) (getLsbD_of_match h rfl)]; rfl
  case not => rw [decode_not (opcode_of_match h rfl)]; rfl
  case br => rw [decode_br (opcode_of_match h rfl)]; rfl
  case jmp => rw [decode_jmp (opcode_of_match h rfl)]; rfl
  case jsr => rw [decode_jsr (opcode_of_match h rfl) (getLsbD_of_match h rfl)]; rfl
  case jsrr => rw [decode_jsrr (opcode_of_match h rfl) (getLsbD_of_match h rfl)]; rfl
  case ld => rw [decode_ld (opcode_of_match h rfl)]; rfl
  case ldi => rw [decode_ldi (opcode_of_match h rfl)]; rfl
  case ldr => rw [decode_ldr (opcode_of_match h rfl)]; rfl
  case lea => rw [decode_lea (opcode_of_match h rfl)]; rfl
  case st => rw [decode_st (opcode_of_match h rfl)]; rfl
  case sti => rw [decode_sti (opcode_of_match h rfl)]; rfl
  case str => rw [decode_str (opcode_of_match h rfl)]; rfl
  case trap => rw [decode_trap (opcode_of_match h rfl)]; rfl
  case rti => rw [decode_rti (opcode_of_match h rfl)]
  case res => rw [decode_res (opcode_of_match h rfl)]

/-- Settles O2: a Word matches its own form's row, and whatever row it matches fixes opcode and mode bit. -/
theorem everyWordMatchesExactlyItsRow : Obligations.EveryWordMatchesExactlyItsRow := by
  unfold Obligations.EveryWordMatchesExactlyItsRow
  intro w i
  constructor
  · intro h
    exact (row_decode_of_holds h).symm
  · intro h
    rw [h]
    exact row_holds_of_decodesTo (decodesTo_decode w)

/-! ### The bits the decoder examines -/

section
variable {w x mask : Word} (h : w &&& mask = x &&& mask)
include h

theorem extract_of_agree {lo n : Nat} (hmask : mask.extractLsb' lo n = BitVec.allOnes n) :
    x.extractLsb' lo n = w.extractLsb' lo n := by
  have hand := congrArg (BitVec.extractLsb' lo n) h
  rw [BitVec.extractLsb'_and, BitVec.extractLsb'_and, hmask, BitVec.and_allOnes, BitVec.and_allOnes] at hand
  exact hand.symm

theorem opcode_of_agree {o : Opcode} (hmask : Field.opcode mask = BitVec.allOnes 4) (hop : Field.opcode w = o.bits) :
    Field.opcode x = o.bits :=
  (extract_of_agree h hmask).trans hop

theorem getLsbD_of_agree {i : Nat} (hmask : mask.getLsbD i = true) : x.getLsbD i = w.getLsbD i := by
  have hand := congrArg (BitVec.getLsbD · i) h
  simpa only [BitVec.getLsbD_and, hmask, Bool.and_true] using hand.symm

end

/-- The examined bits hold the opcode, the mode bit and every field the form keeps. -/
theorem decode_eq_of_agree {w x : Word} {i : Instr} (hi : DecodesTo w i) (h : w &&& i.examined = x &&& i.examined) :
    decode x = i := by
  cases hi <;> simp only [Instr.examined] at h
  case addReg hop hmode =>
    rw [decode_addReg (opcode_of_agree h rfl hop) ((getLsbD_of_agree h rfl).trans hmode)]
    congr 1 <;> exact extract_of_agree h rfl
  case addImm hop hmode =>
    rw [decode_addImm (opcode_of_agree h rfl hop) ((getLsbD_of_agree h rfl).trans hmode)]
    congr 1 <;> exact extract_of_agree h rfl
  case andReg hop hmode =>
    rw [decode_andReg (opcode_of_agree h rfl hop) ((getLsbD_of_agree h rfl).trans hmode)]
    congr 1 <;> exact extract_of_agree h rfl
  case andImm hop hmode =>
    rw [decode_andImm (opcode_of_agree h rfl hop) ((getLsbD_of_agree h rfl).trans hmode)]
    congr 1 <;> exact extract_of_agree h rfl
  case not hop => rw [decode_not (opcode_of_agree h rfl hop)]; congr 1 <;> exact extract_of_agree h rfl
  case br hop =>
    rw [decode_br (opcode_of_agree h rfl hop)]
    congr 1
    · exact getLsbD_of_agree h rfl
    · exact getLsbD_of_agree h rfl
    · exact getLsbD_of_agree h rfl
    · exact extract_of_agree h rfl
  case jmp hop => rw [decode_jmp (opcode_of_agree h rfl hop)]; congr 1; exact extract_of_agree h rfl
  case jsr hop hlong =>
    rw [decode_jsr (opcode_of_agree h rfl hop) ((getLsbD_of_agree h rfl).trans hlong)]
    congr 1; exact extract_of_agree h rfl
  case jsrr hop hlong =>
    rw [decode_jsrr (opcode_of_agree h rfl hop) ((getLsbD_of_agree h rfl).trans hlong)]
    congr 1; exact extract_of_agree h rfl
  case ld hop => rw [decode_ld (opcode_of_agree h rfl hop)]; congr 1 <;> exact extract_of_agree h rfl
  case ldi hop => rw [decode_ldi (opcode_of_agree h rfl hop)]; congr 1 <;> exact extract_of_agree h rfl
  case ldr hop => rw [decode_ldr (opcode_of_agree h rfl hop)]; congr 1 <;> exact extract_of_agree h rfl
  case lea hop => rw [decode_lea (opcode_of_agree h rfl hop)]; congr 1 <;> exact extract_of_agree h rfl
  case st hop => rw [decode_st (opcode_of_agree h rfl hop)]; congr 1 <;> exact extract_of_agree h rfl
  case sti hop => rw [decode_sti (opcode_of_agree h rfl hop)]; congr 1 <;> exact extract_of_agree h rfl
  case str hop => rw [decode_str (opcode_of_agree h rfl hop)]; congr 1 <;> exact extract_of_agree h rfl
  case trap hop => rw [decode_trap (opcode_of_agree h rfl hop)]; congr 1; exact extract_of_agree h rfl
  case rti hop => exact decode_rti (opcode_of_agree h rfl hop)
  case res hop => exact decode_res (opcode_of_agree h rfl hop)

/-- Settles O3: the decoder answers from the examined bits alone (D4). -/
theorem ignoredBitsAreNotExamined : Obligations.IgnoredBitsAreNotExamined := by
  unfold Obligations.IgnoredBitsAreNotExamined
  intro w x h
  exact decode_eq_of_agree (decodesTo_decode w) h

/-- A clear bit may be placed anywhere. -/
theorem or_place_false (x : Word) (lo : Nat) : x ||| place (bit false) lo = x := by
  simp [place, bit]

/-! Each format, written from the fields of a Word, has the Word's own bits wherever it has a field. -/

section
variable {w : Word} {o : Opcode} (hop : Field.opcode w = o.bits)
include hop

/-- A clear mode bit is one more field of the format. -/
theorem encOpReg_fields (hmode : Field.immMode w = false) :
    encOpReg o (Field.dr w) (Field.sr1 w) (Field.sr2 w) = w &&& 0xFFE7 := by
  rw [encOpReg, ← or_place_false (_ ||| _) 5, ← hop, ← hmode, place_opcode, place_dr, place_sr1, place_sr2,
    place_immMode]
  simp only [← BitVec.and_or_distrib_left]
  rfl

theorem encOpImm_fields (hmode : Field.immMode w = true) :
    encOpImm o (Field.dr w) (Field.sr1 w) (Field.imm5 w) = w := by
  rw [encOpImm, ← hop, ← hmode, place_opcode, place_dr, place_sr1, place_imm5, place_immMode]
  simp only [← BitVec.and_or_distrib_left]
  exact BitVec.and_allOnes

theorem encBase_fields : encBase o (Field.dr w) (Field.sr1 w) (Field.offset6 w) = w := by
  rw [encBase, ← hop, place_opcode, place_dr, place_sr1, place_offset6]
  simp only [← BitVec.and_or_distrib_left]
  exact BitVec.and_allOnes

theorem encPcRel_fields : encPcRel o (Field.dr w) (Field.offset9 w) = w := by
  rw [encPcRel, ← hop, place_opcode, place_dr, place_offset9]
  simp only [← BitVec.and_or_distrib_left]
  exact BitVec.and_allOnes

end

/-- The examined bits of a form are those of its fields, the opcode and the mode bit (R83, R85). -/
theorem encode_and_examined {w : Word} {i : Instr} (h : DecodesTo w i) :
    encode i &&& i.examined = w &&& i.examined := by
  cases h <;> simp only [encode, Instr.examined]
  case addReg hop hmode | andReg hop hmode =>
    rw [encOpReg_fields hop hmode, BitVec.and_assoc]
    rfl
  case addImm hop hmode | andImm hop hmode => rw [encOpImm_fields hop hmode]
  case ldr hop | str hop => rw [encBase_fields hop]
  case ld hop | ldi hop | lea hop | st hop | sti hop => rw [encPcRel_fields hop]
  case not hop =>
    rw [← hop, BitVec.and_or_distrib_right, place_opcode, place_dr, place_sr1]
    simp only [← BitVec.and_or_distrib_left, BitVec.and_assoc]
    exact BitVec.or_zero
  case br hop =>
    rw [← hop, place_opcode, place_n, place_z, place_p, place_offset9]
    simp only [← BitVec.and_or_distrib_left, BitVec.and_assoc]
    rfl
  case jsr hop hlong =>
    rw [← hop, ← hlong, place_opcode, place_jsrLong, place_offset11]
    simp only [← BitVec.and_or_distrib_left, BitVec.and_assoc]
    rfl
  case jsrr hop hlong =>
    rw [← or_place_false (_ ||| _) 11, ← hop, ← hlong, place_opcode, place_sr1, place_jsrLong]
    simp only [← BitVec.and_or_distrib_left, BitVec.and_assoc]
    rfl
  case jmp hop =>
    rw [← hop, place_opcode, place_sr1, ← BitVec.and_or_distrib_left, BitVec.and_assoc]
    rfl
  case trap hop =>
    rw [← hop, place_opcode, place_trapvect8, ← BitVec.and_or_distrib_left, BitVec.and_assoc]
    rfl
  case rti hop | res hop =>
    rw [← hop, place_opcode, BitVec.and_assoc]
    rfl

/-- Settles O4: every examined bit stands in the canonical Word where it stood (R83, R85). -/
theorem encodeDecodeKeepsExaminedBits : Obligations.EncodeDecodeKeepsExaminedBits := by
  unfold Obligations.EncodeDecodeKeepsExaminedBits
  exact fun w => encode_and_examined (decodesTo_decode w)

/-! ### Illegal and given Words -/

theorem legal_eq_false_iff (i : Instr) : i.legal = false ↔ i.opcode = .rti ∨ i.opcode = .res := by
  unfold Instr.legal
  cases i.opcode <;> decide

/-- Settles O6: legality is a matter of the opcode, and the opcode map gives RTI and RES to 8 and 13 (R82, R86). -/
theorem illegalWordsAreOpcodes8And13 : Obligations.IllegalWordsAreOpcodes8And13 := by
  unfold Obligations.IllegalWordsAreOpcodes8And13
  intro w
  rw [legal_eq_false_iff, opcode_decode, Opcode.ofBits_eq_iff, Opcode.ofBits_eq_iff]
  rfl

/-- Settles O5: the decoder evaluated on the sixteen Words. -/
theorem specWordsDecodeAsWritten : Obligations.SpecWordsDecodeAsWritten := by
  unfold Obligations.SpecWordsDecodeAsWritten
  decide

end Sys2Proof.Machine
end

section
/-! SUPPORT. The flag code and the ALU (10_state.md R26, 40_cycle_and_units.md R121), the canonical form of a memory as
extensionality (20_memory.md R50; log entry 1), and the forms of 42_control.md and 44_trap_and_illegal.md that no family
before has: BR, JSRR and the two decode errors. -/

namespace Sys2Proof.Machine

open Sys2Proof.Claims

/-! ### The flag and the ALU -/

/-- Settles O8: `setcc` is the signed reading, and each flag has its own bit (D3). -/
theorem flagIsTheSignedReading : Obligations.FlagIsTheSignedReading := by
  unfold Obligations.FlagIsTheSignedReading
  refine ⟨flagFor_condOf, fun c => ?_⟩
  cases c <;> decide

/-- Settles O9: the library's laws of the three operations on Words. -/
theorem aluIsModularAndBitwise : Obligations.AluIsModularAndBitwise := by
  unfold Obligations.AluIsModularAndBitwise
  refine ⟨BitVec.toNat_add, fun a b i => BitVec.getLsbD_and, fun a b i hi => ?_⟩
  simp [alu, hi]

/-! ### Canonical memories -/

/-- The first listed address of a canonical list is not listed in one that begins above it. -/
theorem Memory.read_cons_ne_of_wfFrom {lo lo' k : Nat} {v : Word} {m m' : Memory}
    (hm : Memory.wfFrom lo ((k, v) :: m) = true) (hm' : Memory.wfFrom lo' m' = true) (hk : k < lo') :
    Memory.read ((k, v) :: m) k ≠ m'.read k := by
  obtain ⟨-, -, hv, -⟩ := Memory.wfFrom_cons_iff.mp hm
  rwa [Memory.read_cons, if_pos rfl, Memory.read_of_lt_wfFrom hm' hk]

/-- A canonical list is determined by what it reads: its first cell is at the first address that is not unlisted. -/
theorem Memory.eq_of_read_eq {lo : Nat} {m m' : Memory} (hm : Memory.wfFrom lo m = true)
    (hm' : Memory.wfFrom lo m' = true) (h : ∀ a, a < memWords → m.read a = m'.read a) : m = m' := by
  induction m generalizing lo m' with
  | nil =>
    cases m' with
    | nil => rfl
    | cons c m' =>
      obtain ⟨k, v⟩ := c
      obtain ⟨-, hk, -, -⟩ := Memory.wfFrom_cons_iff.mp hm'
      exact absurd (h k hk).symm (Memory.read_cons_ne_of_wfFrom (lo' := k + 1) hm' rfl (Nat.lt_succ_self k))
  | cons c m ih =>
    obtain ⟨k, v⟩ := c
    obtain ⟨hlo, hk, hv, htail⟩ := Memory.wfFrom_cons_iff.mp hm
    cases m' with
    | nil => exact absurd (h k hk) (Memory.read_cons_ne_of_wfFrom (lo' := k + 1) hm rfl (Nat.lt_succ_self k))
    | cons c' m' =>
      obtain ⟨k', v'⟩ := c'
      obtain ⟨hlo', hk', hv', htail'⟩ := Memory.wfFrom_cons_iff.mp hm'
      obtain hlt | rfl | hgt := Nat.lt_trichotomy k k'
      · have hm'' : Memory.wfFrom k' ((k', v') :: m') = true := Memory.wfFrom_cons_iff.mpr ⟨le_rfl, hk', hv', htail'⟩
        exact absurd (h k hk) (Memory.read_cons_ne_of_wfFrom hm hm'' hlt)
      · have hvv : v = v' := by simpa [Memory.read_cons] using h k hk
        have hrest : m = m' := ih htail htail' fun a ha => by
          by_cases hka : k = a
          · rw [← hka, Memory.read_of_lt_wfFrom htail (Nat.lt_succ_self k),
              Memory.read_of_lt_wfFrom htail' (Nat.lt_succ_self k)]
          · simpa [Memory.read_cons, hka] using h a ha
        rw [hvv, hrest]
      · have hm'' : Memory.wfFrom k ((k, v) :: m) = true := Memory.wfFrom_cons_iff.mpr ⟨le_rfl, hk, hv, htail⟩
        exact absurd (h k' hk').symm (Memory.read_cons_ne_of_wfFrom hm' hm'' hgt)

/-- Settles O12: every address below 65,536 is a Word's. -/
theorem canonicalMemoriesThatReadAlikeAreEqual : Obligations.CanonicalMemoriesThatReadAlikeAreEqual := by
  unfold Obligations.CanonicalMemoriesThatReadAlikeAreEqual
  intro m m' hm hm' h
  refine Memory.eq_of_read_eq hm hm' fun a ha => ?_
  have hword : (BitVec.ofNat 16 a).toNat = a := Nat.mod_eq_of_lt ha
  rw [← hword]
  exact h (BitVec.ofNat 16 a)

/-! ### BR -/

theorem brTaken_eq_true_iff (n z p : Bool) (c : Cond) : brTaken n z p c = true ↔
    (n = true ∧ c = .negative) ∨ (z = true ∧ c = .zero) ∨ (p = true ∧ c = .positive) := by
  simp [brTaken, or_assoc]

/-- The test is the AND of the three bits with the one-hot flag (R150). -/
theorem brTaken_iff_and_bits (n z p : Bool) (c : Cond) : brTaken n z p c = true ↔
    (BitVec.ofBool n ++ BitVec.ofBool z ++ BitVec.ofBool p) &&& c.bits ≠ 0 := by
  revert n z p
  cases c <;> decide

theorem exec_br (n z p : Bool) (offset9 : BitVec 9) (s : State) : exec (.br n z p offset9) s =
    .next (s.setPc (if brTaken n z p s.cond = true then s.pc + sext offset9 else s.pc)) := by
  have harm : exec (.br n z p offset9) s = execBr n z p offset9 s := rfl
  rw [harm, execBr]
  split <;> rfl

/-- Settles O18: row 0x0000 under 0xF000, and one write of the PC, which not taking the branch makes the identity. -/
theorem branchOnMatchingCondition : Obligations.BranchOnMatchingCondition := by
  unfold Obligations.BranchOnMatchingCondition
  constructor
  · intro w h
    exact decode_br (opcode_of_match h rfl)
  · intro n z p offset9 s
    refine ⟨?_, brTaken_iff_and_bits n z p s.cond⟩
    simp only [exec_br, brTaken_eq_true_iff]
    rfl

/-! ### JSRR and the decode errors -/

/-- R153: the base register is read after the link (D21). -/
theorem exec_jsrr (baseR : Reg) (s : State) :
    exec (.jsrr baseR) s = .next (s.link.setPc (if baseR = 7 then s.pc else s.reg baseR)) := by
  rw [← State.reg_link]
  rfl

/-- Settles O21: row 0x4000 under 0xF800, bit 11 being the clear long-form bit, and one jump with a link. -/
theorem jumpToSubroutineByRegister : Obligations.JumpToSubroutineByRegister := by
  unfold Obligations.JumpToSubroutineByRegister
  constructor
  · intro w h
    exact decode_jsrr (opcode_of_match h rfl) (getLsbD_of_match h rfl)
  · intro baseR s
    exact ⟨_, exec_jsrr baseR s, link_setPc_frame s _⟩

theorem exec_rti (s : State) : exec .rti s = .next (s.halt .illegalInstruction) := rfl
theorem exec_res (s : State) : exec .res s = .next (s.halt .illegalInstruction) := rfl

/-- Settles O41: row 0x8000 under 0xF000, and the halt with its cause (R188, R201). -/
theorem rtiIsTheDecodeError : Obligations.RtiIsTheDecodeError := by
  unfold Obligations.RtiIsTheDecodeError
  exact ⟨fun w h => decode_rti (opcode_of_match h rfl), exec_rti⟩

/-- Settles O42: row 0xD000 under 0xF000, and the halt with its cause (R189, R201). -/
theorem resIsTheDecodeError : Obligations.ResIsTheDecodeError := by
  unfold Obligations.ResIsTheDecodeError
  exact ⟨fun w h => decode_res (opcode_of_match h rfl), exec_res⟩

end Sys2Proof.Machine
end

section
/-! SUPPORT. The one read path of the machine (20_memory.md R51, R53, R54, R70) against the words of the statements:
when a console byte or a read completes, with what, and when it waits; and the loads and STI that wait
(40_cycle_and_units.md R126). -/

namespace Sys2Proof.Machine

open Sys2Proof.Claims

/-! ### Console bytes -/

/-- R70: a byte the console gives is at the head of the queue or of the first batch that brings one. -/
theorem Keyboard.byteGives_of_await {queue : List Byte} {arrivals : List (List Byte)} {b : Byte} {k : Keyboard}
    (h : Keyboard.await queue arrivals = some (b, k)) : ByteGives { queue := queue, arrivals := arrivals } b k := by
  cases queue with
  | cons c queue =>
    rw [Keyboard.await_cons] at h
    cases h
    exact .inl ⟨rfl, rfl⟩
  | nil =>
    refine .inr ⟨rfl, ?_⟩
    induction arrivals with
    | nil => cases h
    | cons batch later ih =>
      cases batch with
      | nil =>
        obtain ⟨n, hn⟩ := ih h
        have hn : later = List.replicate n [] ++ (b :: k.queue) :: k.arrivals := hn
        exact ⟨n + 1, congrArg (List.cons []) hn⟩
      | cons c batch =>
        rw [Keyboard.await_nil_cons, Keyboard.await_cons] at h
        cases h
        exact ⟨0, rfl⟩

theorem noByte_iff_pending {k : Keyboard} : NoByte k ↔ k.pending = [] := by
  simp [NoByte, Keyboard.pending]

theorem State.readByte_of_byteGives {s : State} {b : Byte} {k : Keyboard} (h : ByteGives s.kbd b k) :
    s.readByte = some (b, s.setKbd k) :=
  State.readByte_eq_some_iff.mpr ⟨Keyboard.await_of_byteGives h, rfl⟩

/-! ### Reads -/

theorem State.readGives_of_memRead {s t : State} {a v : Word} (h : s.memRead a = some (v, t)) :
    ReadGives s a v t.kbd := by
  obtain ⟨ha, hv, rfl⟩ | ⟨hks, hkd, b, k, hk, hv, rfl⟩ | ⟨hks, hkd, hv, rfl⟩ := State.memRead_cases h
  · exact .inl ⟨ha, Keyboard.hear_eq s.kbd, hv⟩
  · exact .inr (.inl ⟨hks, hkd, b, Keyboard.byteGives_of_await hk, hv⟩)
  · exact .inr (.inr ⟨⟨hks, hkd⟩, rfl, hv⟩)

theorem State.memRead_eq_some_iff {s u : State} {a v : Word} :
    s.memRead a = some (v, u) ↔ ReadGives s a v u.kbd ∧ u = s.setKbd u.kbd := by
  constructor
  · intro h
    exact ⟨State.readGives_of_memRead h, State.memRead_setKbd h⟩
  · rintro ⟨h, hu⟩
    rw [State.memRead_of_readGives h, ← hu]

theorem State.memRead_eq_none_iff_readHolds {s : State} {a : Word} : s.memRead a = none ↔ ReadHolds s a := by
  rw [State.memRead_eq_none_iff, ReadHolds, noByte_iff_pending]

/-- Settles O11: the completed reads and the ones that wait. -/
theorem readPathInterceptsTwoAddresses : Obligations.ReadPathInterceptsTwoAddresses := by
  unfold Obligations.ReadPathInterceptsTwoAddresses
  exact fun s a => ⟨fun v u => State.memRead_eq_some_iff, State.memRead_eq_none_iff_readHolds⟩

/-! ### Loads and STI that wait -/

section
variable {s : State} (r baseR : Reg) (offset6 : BitVec 6) (offset9 : BitVec 9)

theorem State.loadInto_eq_none_iff {a : Word} : s.loadInto r a = none ↔ s.memRead a = none := by
  unfold State.loadInto
  cases s.memRead a <;> simp

theorem exec_ld_eq_hold_iff : exec (.ld r offset9) s = .fault .consoleHold ↔ ReadHolds s (s.pc + sext offset9) := by
  have harm : exec (.ld r offset9) s = answer (s.loadInto r (s.pc + sext offset9)) := rfl
  rw [harm, answer_eq_hold_iff, State.loadInto_eq_none_iff, State.memRead_eq_none_iff_readHolds]

theorem exec_ldr_eq_hold_iff :
    exec (.ldr r baseR offset6) s = .fault .consoleHold ↔ ReadHolds s (s.reg baseR + sext offset6) := by
  have harm : exec (.ldr r baseR offset6) s = answer (s.loadInto r (s.reg baseR + sext offset6)) := rfl
  rw [harm, answer_eq_hold_iff, State.loadInto_eq_none_iff, State.memRead_eq_none_iff_readHolds]

theorem exec_sti_eq_hold_iff : exec (.sti r offset9) s = .fault .consoleHold ↔ ReadHolds s (s.pc + sext offset9) := by
  have harm : exec (.sti r offset9) s =
    answer ((s.memRead (s.pc + sext offset9)).map fun p => p.2.memWrite p.1 (s.reg r)) := rfl
  rw [harm, answer_eq_hold_iff, Option.map_eq_none_iff, State.memRead_eq_none_iff_readHolds]

/-- LDI has two reads, and the second finds the console as the first leaves it. -/
theorem exec_ldi_eq_hold_iff : exec (.ldi r offset9) s = .fault .consoleHold ↔
    ReadHolds s (s.pc + sext offset9) ∨
      ∃ ea k, ReadGives s (s.pc + sext offset9) ea k ∧ ReadHolds { s with kbd := k } ea := by
  have harm : exec (.ldi r offset9) s =
    answer ((s.memRead (s.pc + sext offset9)).bind fun p => p.2.loadInto r p.1) := rfl
  rw [harm, answer_eq_hold_iff, ← State.memRead_eq_none_iff_readHolds]
  cases hptr : s.memRead (s.pc + sext offset9) with
  | none => simp
  | some p =>
    obtain ⟨ea, u⟩ := p
    obtain ⟨hgives, hu⟩ := State.memRead_eq_some_iff.mp hptr
    simp only [Option.bind_some, reduceCtorEq, false_or]
    rw [State.loadInto_eq_none_iff, State.memRead_eq_none_iff_readHolds]
    constructor
    · intro hholds
      rw [hu] at hholds
      exact ⟨ea, u.kbd, hgives, hholds⟩
    · rintro ⟨ea', k, hgives', hholds⟩
      rw [State.memRead_of_readGives hgives'] at hptr
      cases hptr
      exact hholds

end

/-- Settles O29: form by form, the reads that wait. -/
theorem loadsWaitExactlyForAMissingKey : Obligations.LoadsWaitExactlyForAMissingKey := by
  unfold Obligations.LoadsWaitExactlyForAMissingKey
  exact fun r baseR offset9 offset6 s => ⟨exec_ld_eq_hold_iff r offset9, exec_ldr_eq_hold_iff r baseR offset6,
    exec_sti_eq_hold_iff r offset9, exec_ldi_eq_hold_iff r offset9⟩

/-- Settles O30: an empty queue with one byte appended gives that byte and is empty again. -/
theorem appendedKeyLiftsTheWait : Obligations.AppendedKeyLiftsTheWait := by
  unfold Obligations.AppendedKeyLiftsTheWait
  intro dr offset9 s b hholds
  refine ⟨(exec_ld_eq_hold_iff dr offset9).mpr hholds, ?_⟩
  obtain ⟨hks, hkd, hqueue, -⟩ := hholds
  have hbyte : ByteGives (s.move (.key b)).kbd b s.kbd := .inl ⟨by simp [State.move, hqueue], rfl⟩
  have hread : ReadGives (s.move (.key b)) (s.pc + sext offset9) (zext b) s.kbd := .inr (.inl ⟨hks, hkd, b, hbyte, rfl⟩)
  exact ⟨_, exec_ld dr offset9 (State.memRead_of_readGives hread), writesDest_writeDest s dr (zext b)⟩

/-- Settles O31: ST #0 writes the cell at the PC, and a fetch from a plain PC reads that cell. -/
theorem storeIsSeenByTheNextFetch : Obligations.StoreIsSeenByTheNextFetch := by
  unfold Obligations.StoreIsSeenByTheNextFetch
  intro sr s hplain
  have hpc : s.pc + sext (0 : BitVec 9) = s.pc := BitVec.add_zero s.pc
  have hexec : exec (.st sr 0) s = .next (s.memWrite s.pc (s.reg sr)) := by rw [exec_st, hpc]
  have hread : (s.memWrite s.pc (s.reg sr)).memRead s.pc = some (s.reg sr, s.memWrite s.pc (s.reg sr)) := by
    rw [State.memRead_plain (s := s.memWrite s.pc (s.reg sr)) hplain.1 hplain.2, State.mem_memWrite,
      Memory.read_write_self]
  exact ⟨_, _, hexec, State.fetch_eq_some_iff.mpr ⟨_, _, hread, rfl⟩, rfl, rfl⟩

/-- Settles O60: both reads of LDI are polls of the status; the batch that arrives at the first is empty and the one
that arrives at the second is not. -/
theorem arrivalBetweenTwoPollsIsSeenByTheSecond : Obligations.ArrivalBetweenTwoPollsIsSeenByTheSecond := by
  unfold Obligations.ArrivalBetweenTwoPollsIsSeenByTheSecond
  intro dr offset9 s b batch later haddr hidle hkbd
  have hpoll : ReadGives s (s.pc + sext offset9) s.cfg.kbsrIdle { queue := [], arrivals := (b :: batch) :: later } :=
    .inl ⟨haddr, by rw [hkbd]; rfl, rfl⟩
  have hpoll' : ReadGives { s with kbd := { queue := [], arrivals := (b :: batch) :: later } } s.cfg.kbsrIdle
      s.cfg.kbsrReady { queue := b :: batch, arrivals := later } := .inl ⟨hidle, rfl, rfl⟩
  exact ⟨_, exec_ldi dr offset9 (State.memRead_of_readGives hpoll) (State.memRead_of_readGives hpoll'),
    writesDest_writeDest _ dr _⟩

end Sys2Proof.Machine
end

section
/-! SUPPORT. What an instruction that completes can do to the state, said once (`Effect`), and the rules about every
instruction that follow from it: who writes the flag, the registers, memory and the PC, and how the console moves
(10_state.md R21, R25, R27, R32, R33). -/

namespace Sys2Proof.Machine

open Sys2Proof.Claims

/-! ### The console's input moves forward -/

/-- The input `k'` comes after `k`: bytes were taken from its head alone, and batches arrived in order (R33, R70). -/
def Keyboard.Before (k k' : Keyboard) : Prop :=
  (∃ taken, k.pending = taken ++ k'.pending) ∧ ∃ n : Nat, k'.arrivals = k.arrivals.drop n

theorem Keyboard.Before.refl (k : Keyboard) : k.Before k := ⟨⟨[], rfl⟩, 0, rfl⟩

theorem Keyboard.Before.trans {k₁ k₂ k₃ : Keyboard} (h : k₁.Before k₂) (h' : k₂.Before k₃) : k₁.Before k₃ := by
  obtain ⟨⟨taken, htaken⟩, n, hn⟩ := h
  obtain ⟨⟨taken', htaken'⟩, n', hn'⟩ := h'
  exact ⟨⟨taken ++ taken', by rw [htaken, htaken', List.append_assoc]⟩, n + n', by rw [hn', hn, List.drop_drop]⟩

theorem Keyboard.before_hear (k : Keyboard) : k.Before k.hear :=
  ⟨⟨[], (Keyboard.pending_hear k).symm⟩, 1, by rw [Keyboard.hear_eq, List.drop_one]⟩

theorem Keyboard.before_of_await {k k' : Keyboard} {b : Byte} (h : Keyboard.await k.queue k.arrivals = some (b, k')) :
    k.Before k' := by
  refine ⟨⟨[b], Keyboard.pending_of_await h⟩, ?_⟩
  obtain ⟨-, harrivals⟩ | ⟨-, n, harrivals⟩ := Keyboard.byteGives_of_await h
  · exact ⟨0, harrivals⟩
  · exact ⟨n + 1, by rw [harrivals]; simp [List.drop_append]⟩

theorem State.before_of_readByte {s t : State} {b : Byte} (h : s.readByte = some (b, t)) : s.kbd.Before t.kbd :=
  Keyboard.before_of_await (State.readByte_eq_some_iff.mp h).1

theorem State.before_of_memRead {s t : State} {a v : Word} (h : s.memRead a = some (v, t)) : s.kbd.Before t.kbd := by
  obtain ⟨-, -, rfl⟩ | ⟨-, -, b, k, hk, -, rfl⟩ | ⟨-, -, -, rfl⟩ := State.memRead_cases h
  · exact Keyboard.before_hear s.kbd
  · exact Keyboard.before_of_await hk
  · exact Keyboard.Before.refl _

/-! ### The native services -/

section
variable {s t : State} {a : Word} {vector : BitVec 8}

/-- PUTS moves the input forward and adds to the output. -/
theorem State.putsLoop_console {fuel : Nat} (h : State.putsLoop fuel a s = some t) :
    s.kbd.Before t.kbd ∧ ∃ added, t.out = s.out ++ added := by
  induction fuel generalizing a s with
  | zero => cases h
  | succ fuel ih =>
    simp only [State.putsLoop] at h
    split at h
    · cases h
    · rename_i w u hread
      have hkbd := State.before_of_memRead hread
      have hout : u.out = s.out := by rw [State.memRead_setKbd hread, State.out_setKbd]
      split at h
      · cases h
        exact ⟨hkbd, [], by rw [hout, List.append_nil]⟩
      · obtain ⟨hkbd', added, hadded⟩ := ih h
        exact ⟨hkbd.trans hkbd', [lowByte w] ++ added, by rw [hadded, State.out_writeByte, hout, List.append_assoc]⟩

/-- READLINE moves the input forward. -/
theorem State.readLineLoop_before {fuel : Nat} (h : State.readLineLoop fuel a s = some t) : s.kbd.Before t.kbd := by
  induction fuel generalizing a s with
  | zero => cases h
  | succ fuel ih =>
    simp only [State.readLineLoop] at h
    split at h
    · cases h
    · rename_i b u hbyte
      have hkbd := State.before_of_readByte hbyte
      split at h
      · cases h
        exact hkbd
      · exact hkbd.trans (ih (s := u.memWrite a (zext b)) h)

/-- No service writes the flag, the PC, IR, the stop input, the schedule or a parameter. -/
theorem State.service_frame (h : s.service vector = some t) :
    t.cond = s.cond ∧ t.pc = s.pc ∧ SameInputs s t := by
  obtain ⟨-, b, k, -, rfl⟩ | ⟨-, rfl⟩ | ⟨-, hputs⟩ | ⟨-, hline⟩ | ⟨-, rfl⟩ | ⟨-, rfl⟩ := State.service_cases h
  case inr.inr.inl =>
    rw [State.putsLoop_frame hputs]
    exact ⟨rfl, rfl, rfl, rfl, rfl, rfl⟩
  case inr.inr.inr.inl =>
    rw [State.readLineLoop_frame hline]
    exact ⟨rfl, rfl, rfl, rfl, rfl, rfl⟩
  all_goals exact ⟨rfl, rfl, rfl, rfl, rfl, rfl⟩

/-- A service writes no register but R0, and that only for the character read. -/
theorem State.service_reg (h : s.service vector = some t) {r : Reg} (hr : vector = s.cfg.vecGetc → r ≠ 0) :
    t.reg r = s.reg r := by
  obtain ⟨hv, b, k, -, rfl⟩ | ⟨-, rfl⟩ | ⟨-, hputs⟩ | ⟨-, hline⟩ | ⟨-, rfl⟩ | ⟨-, rfl⟩ := State.service_cases h
  · exact State.reg_setReg_of_ne _ _ (hr hv)
  · rfl
  · rw [State.putsLoop_frame hputs]
    rfl
  · rw [State.readLineLoop_frame hline]
    rfl
  · rfl
  · rfl

/-- Only READLINE writes memory, and it keeps the canonical form. -/
theorem State.service_mem (h : s.service vector = some t) :
    (vector ≠ s.cfg.vecReadLine → t.mem = s.mem) ∧ (s.mem.wf = true → t.mem.wf = true) := by
  obtain ⟨-, b, k, -, rfl⟩ | ⟨-, rfl⟩ | ⟨-, hputs⟩ | ⟨hv, hline⟩ | ⟨-, rfl⟩ | ⟨-, rfl⟩ := State.service_cases h
  case inr.inr.inl =>
    rw [State.putsLoop_frame hputs]
    exact ⟨fun _ => rfl, id⟩
  case inr.inr.inr.inl => exact ⟨fun hne => absurd hv hne, State.readLineLoop_wf hline⟩
  all_goals exact ⟨fun _ => rfl, id⟩

/-- Only HALT writes the run state and the halt cause. -/
theorem State.service_run (h : s.service vector = some t) :
    SameRun s t ∨ (vector = s.cfg.vecHalt ∧ t.runState = .halted ∧ t.haltCause = .normal) := by
  obtain ⟨-, b, k, -, rfl⟩ | ⟨-, rfl⟩ | ⟨-, hputs⟩ | ⟨-, hline⟩ | ⟨hv, rfl⟩ | ⟨-, rfl⟩ := State.service_cases h
  case inr.inr.inl =>
    rw [State.putsLoop_frame hputs]
    exact .inl ⟨rfl, rfl⟩
  case inr.inr.inr.inl =>
    rw [State.readLineLoop_frame hline]
    exact .inl ⟨rfl, rfl⟩
  case inr.inr.inr.inr.inl => exact .inr ⟨hv, rfl, rfl⟩
  all_goals exact .inl ⟨rfl, rfl⟩

/-- A service moves the input forward and adds to the output. -/
theorem State.service_console (h : s.service vector = some t) :
    s.kbd.Before t.kbd ∧ ∃ added, t.out = s.out ++ added := by
  have hsame : s.out = s.out ++ [] := (List.append_nil s.out).symm
  obtain ⟨-, b, k, hk, rfl⟩ | ⟨-, rfl⟩ | ⟨-, hputs⟩ | ⟨-, hline⟩ | ⟨-, rfl⟩ | ⟨-, rfl⟩ := State.service_cases h
  · exact ⟨Keyboard.before_of_await hk, [], hsame⟩
  · exact ⟨Keyboard.Before.refl _, _, rfl⟩
  · exact State.putsLoop_console hputs
  · refine ⟨State.readLineLoop_before hline, [], ?_⟩
    rw [State.readLineLoop_frame hline]
    exact hsame
  · exact ⟨Keyboard.Before.refl _, [], hsame⟩
  · exact ⟨Keyboard.Before.refl _, [], hsame⟩

end

/-! ### The effect of an instruction that completes -/

/-- Everything an instruction that completes can do: one of six ends, `k` being the console's input as the reads of the
instruction leave it. -/
inductive Effect (i : Instr) (s : State) : State → Prop
  | dest (dr : Reg) (v : Word) (k : Keyboard) (hk : s.kbd.Before k) (hflags : setsFlags i = true)
      (hregs : writesRegs s.cfg i = [dr]) : Effect i s ((s.setKbd k).writeDest dr v)
  | store (a v : Word) (k : Keyboard) (hk : s.kbd.Before k) (hstore : mayStore s.cfg i = true) :
      Effect i s ((s.setKbd k).memWrite a v)
  | jump (target : Word) (hjump : mayJump i = true) : Effect i s (s.setPc target)
  | linkJump (target : Word) (hjump : mayJump i = true) (hregs : writesRegs s.cfg i = [7]) :
      Effect i s (s.link.setPc target)
  | service (vector : BitVec 8) (target : Word) (k : Keyboard) (t : State) (hi : i = .trap vector) (hk : s.kbd.Before k)
      (hservice : ((s.link.setKbd k).setPc target).service vector = some t) : Effect i s t
  | illegal (hlegal : i.legal = false) : Effect i s (s.halt .illegalInstruction)

/-- The case split over the nineteen forms, made once. -/
theorem effect_of_exec {i : Instr} {s t : State} (h : exec i s = .next t) : Effect i s t := by
  have hsame := Keyboard.Before.refl s.kbd
  cases i with
  | addReg | addImm | andReg | andImm | not | lea =>
    cases h
    exact .dest _ _ s.kbd hsame rfl rfl
  | br n z p offset9 =>
    rw [exec_br] at h
    cases h
    exact .jump _ rfl
  | jmp =>
    cases h
    exact .jump _ rfl
  | jsr | jsrr =>
    cases h
    exact .linkJump _ rfl rfl
  | st | str =>
    cases h
    exact .store _ _ s.kbd hsame rfl
  | ld dr offset9 =>
    obtain ⟨v, u, hread, rfl⟩ := execLd_eq_next_iff.mp h
    rw [State.memRead_setKbd hread]
    exact .dest dr v u.kbd (State.before_of_memRead hread) rfl rfl
  | ldr dr baseR offset6 =>
    obtain ⟨v, u, hread, rfl⟩ := execLdr_eq_next_iff.mp h
    rw [State.memRead_setKbd hread]
    exact .dest dr v u.kbd (State.before_of_memRead hread) rfl rfl
  | ldi dr offset9 =>
    obtain ⟨ea, u, v, u', hptr, hdata, rfl⟩ := execLdi_eq_next_iff.mp h
    rw [State.memRead_setKbd hdata, State.memRead_setKbd hptr]
    exact .dest dr v u'.kbd ((State.before_of_memRead hptr).trans (State.before_of_memRead hdata)) rfl rfl
  | sti sr offset9 =>
    obtain ⟨ea, u, hptr, rfl⟩ := execSti_eq_next_iff.mp h
    rw [State.memRead_setKbd hptr]
    exact .store ea _ u.kbd (State.before_of_memRead hptr) rfl
  | trap vector =>
    obtain ⟨u, hentry, hservice⟩ := execTrap_eq_next_iff.mp h
    obtain ⟨target, u', hread, rfl⟩ := State.trapEntry_eq_some_iff.mp hentry
    rw [State.memRead_setKbd hread] at hservice
    exact .service vector target u'.kbd t rfl (State.before_of_memRead (s := s.link) hread) hservice
  | rti | res =>
    cases h
    exact .illegal rfl

/-! ### Who writes what -/

/-- Settles O49: a destination write is the only end that writes the flag. -/
theorem onlyListedInstructionsWriteTheFlag : Obligations.OnlyListedInstructionsWriteTheFlag := by
  unfold Obligations.OnlyListedInstructionsWriteTheFlag
  intro i s t h hno
  cases effect_of_exec h with
  | dest _ _ _ _ hflags => exact absurd hflags (by simp [hno])
  | service _ _ _ _ _ _ hservice => exact (State.service_frame hservice).1
  | store | jump | linkJump | illegal => rfl

/-- Settles O50: a destination write, the link, and the character read into R0. -/
theorem onlyDestinationRegistersChange : Obligations.OnlyDestinationRegistersChange := by
  unfold Obligations.OnlyDestinationRegistersChange
  intro i s t h r hr
  cases effect_of_exec h with
  | dest dr v k _ _ hregs =>
    rw [hregs] at hr
    exact State.reg_setReg_of_ne s v (List.ne_of_not_mem_cons hr)
  | linkJump target _ hregs =>
    rw [hregs] at hr
    exact State.reg_setReg_of_ne s s.pc (List.ne_of_not_mem_cons hr)
  | service vector target k t hi _ hservice =>
    subst hi
    simp only [writesRegs] at hr
    have hr7 : r ≠ 7 := by
      rintro rfl
      split at hr <;> simp at hr
    have hr0 : vector = s.cfg.vecGetc → r ≠ 0 := by
      rintro hv rfl
      simp [hv] at hr
    have hentry : ((s.link.setKbd k).setPc target).reg r = s.reg r := State.reg_setReg_of_ne s s.pc hr7
    exact (State.service_reg hservice hr0).trans hentry
  | store | jump | illegal => rfl

/-- Settles O51: a store, and READLINE among the services. -/
theorem onlyStoresAndReadLineWriteMemory : Obligations.OnlyStoresAndReadLineWriteMemory := by
  unfold Obligations.OnlyStoresAndReadLineWriteMemory
  intro i s t h hno
  cases effect_of_exec h with
  | store _ _ _ _ hstore => exact absurd hstore (by simp [hno])
  | service vector _ _ _ hi _ hservice =>
    subst hi
    have hv : vector ≠ s.cfg.vecReadLine := by simpa [mayStore] using hno
    exact (State.service_mem hservice).1 hv
  | dest | jump | linkJump | illegal => rfl

/-- Settles O52: the two kinds of jump, and TRAP, which may jump too. -/
theorem onlyControlTransfersWriteThePc : Obligations.OnlyControlTransfersWriteThePc := by
  unfold Obligations.OnlyControlTransfersWriteThePc
  intro i s t h hno
  cases effect_of_exec h with
  | jump _ hjump => exact absurd hjump (by simp [hno])
  | linkJump _ hjump => exact absurd hjump (by simp [hno])
  | service _ _ _ _ hi =>
    subst hi
    cases hno
  | dest | store | illegal => rfl

/-- Settles O53: the reads move the input forward, and of the ends only a service touches the output. -/
theorem consoleIsAQueueAndATrace : Obligations.ConsoleIsAQueueAndATrace := by
  unfold Obligations.ConsoleIsAQueueAndATrace
  intro i s t h
  have key : s.kbd.Before t.kbd ∧ ∃ added, t.out = s.out ++ added := by
    have hsame : s.out = s.out ++ [] := (List.append_nil s.out).symm
    cases effect_of_exec h with
    | dest _ _ _ hk => exact ⟨hk, [], hsame⟩
    | store _ _ _ hk => exact ⟨hk, [], hsame⟩
    | service _ _ _ _ _ hk hservice =>
      obtain ⟨hk', hout⟩ := State.service_console hservice
      exact ⟨hk.trans hk', hout⟩
    | jump | linkJump | illegal => exact ⟨Keyboard.Before.refl _, [], hsame⟩
  obtain ⟨⟨htaken, harrivals⟩, hout⟩ := key
  exact ⟨htaken, harrivals, hout⟩

end Sys2Proof.Machine
end

section
/-! SUPPORT. One step of the whole machine (40_cycle_and_units.md R110 to R116, 70_reset_and_hazards.md R230, R239): the
moves that land, the fetch, and the rules about every step: how HALTED is entered and left, that parameters are
constant, and the invariant. -/

namespace Sys2Proof.Machine

open Sys2Proof.Claims

/-! ### The moves that land -/

/-- R239: without a reset the moves change the queue and the stop input alone. -/
theorem foldl_move_of_no_reset {moves : List EnvMove} (s : State)
    (h : ∀ origin image, EnvMove.reset origin image ∉ moves) :
    moves.foldl State.move s =
      { s with kbd := (moves.foldl State.move s).kbd, stopReq := (moves.foldl State.move s).stopReq } := by
  induction moves generalizing s with
  | nil => rfl
  | cons m rest ih =>
    have hrest := ih (s.move m) fun origin image hmem => h origin image (List.mem_cons_of_mem m hmem)
    cases m with
    | key | stop => exact hrest
    | reset origin image => exact absurd List.mem_cons_self (h origin image)

theorem State.land_of_noResetDue {s : State} (h : NoResetDue s) :
    s.land = { s with kbd := s.land.kbd, stopReq := s.land.stopReq, env := s.land.env } := by
  cases henv : s.env with
  | nil => rw [State.land_nil henv]
  | cons moves rest =>
    rw [State.land_cons henv, foldl_move_of_no_reset { s with env := rest } (h moves rest henv)]

/-- R230: a reset supplies the load origin; no move changes another parameter. -/
theorem State.cfg_land (s : State) : s.land.cfg = { s.cfg with loadOrigin := s.land.cfg.loadOrigin } := by
  refine State.land_induct (P := fun u => u.cfg = { s.cfg with loadOrigin := u.cfg.loadOrigin }) (fun _ => rfl) ?_
  intro u m hu
  cases m with
  | key | stop => exact hu
  | reset origin image => exact congrArg (fun c : Config => { c with loadOrigin := origin }) hu

/-! ### The fetch -/

theorem State.fetch_of_readGives {s : State} {w : Word} {k : Keyboard} (h : ReadGives s s.pc w k) :
    s.fetch = some { s with ir := w, pc := s.pc + 1, kbd := k } :=
  State.fetch_eq_some_iff.mpr ⟨w, s.setKbd k, State.memRead_of_readGives h, rfl⟩

theorem State.fetch_of_readHolds {s : State} (h : ReadHolds s s.pc) : s.fetch = none := by
  unfold State.fetch
  rw [State.memRead_eq_none_iff_readHolds.mpr h]

/-- R112: the fetch writes IR, the PC and the console's input alone. -/
theorem State.fetch_frame {s u : State} (h : s.fetch = some u) :
    u = { s with ir := u.ir, pc := u.pc, kbd := u.kbd } := by
  obtain ⟨w, t, hread, rfl⟩ := State.fetch_eq_some_iff.mp h
  rw [State.memRead_setKbd hread]
  rfl

/-- Settles O43: the step is the execution of the fetched instruction, and its wait is turned into the state before. -/
theorem stepRunsTheDecodedInstruction : Obligations.StepRunsTheDecodedInstruction := by
  unfold Obligations.StepRunsTheDecodedInstruction
  rintro s w k i ⟨hrun, hstop⟩ hread rfl
  have hstep := coreStep_of_fetch hrun hstop (State.fetch_of_readGives hread)
  constructor
  · intro t hexec
    rw [step, hstep, hexec, retire_next]
  · intro hexec
    rw [step, hstep, hexec, retire_hold]

/-- Settles O44: a fetch that waits (R126). -/
theorem fetchWithoutAKeyWaits : Obligations.FetchWithoutAKeyWaits := by
  unfold Obligations.FetchWithoutAKeyWaits
  rintro s ⟨hrun, hstop⟩ hholds
  exact coreStep_of_fetch_none hrun hstop (State.fetch_of_readHolds hholds)

/-- Settles O45: the stop request comes before the fetch (R111). -/
theorem stopRequestHaltsBeforeTheFetch : Obligations.StopRequestHaltsBeforeTheFetch := by
  unfold Obligations.StopRequestHaltsBeforeTheFetch
  intro s hrun hstop
  exact coreStep_of_stop hrun hstop

/-! ### HALTED -/

/-- Settles O46: without a reset the moves leave the machine HALTED, and a HALTED machine stays as it is. -/
theorem haltedIsAbsorbing : Obligations.HaltedIsAbsorbing := by
  unfold Obligations.HaltedIsAbsorbing
  intro s hhalted hreset
  have hland := State.land_of_noResetDue hreset
  have hrun : s.land.runState = .halted := by rw [hland]; exact hhalted
  refine ⟨s.land, coreStep_of_halted hrun, hrun, ?_⟩
  rw [hland]
  exact ⟨rfl, rfl, rfl, rfl, rfl, rfl, rfl, rfl⟩

/-- The CORE's step answers a next state in each of its cases. -/
theorem exists_coreStep_eq_next (s : State) : ∃ t, coreStep s = .next t := by
  cases hrun : s.runState with
  | halted => exact ⟨_, coreStep_of_halted hrun⟩
  | running =>
    cases hstop : s.stopReq with
    | true => exact ⟨_, coreStep_of_stop hrun hstop⟩
    | false =>
      cases hfetch : s.fetch with
      | none => exact ⟨_, coreStep_of_fetch_none hrun hstop hfetch⟩
      | some u =>
        rw [coreStep_of_fetch hrun hstop hfetch]
        obtain ⟨t, hexec⟩ | hexec := exec_next_or_hold (decode u.ir) u
        · exact ⟨t, by rw [hexec, retire_next]⟩
        · exact ⟨s, by rw [hexec, retire_hold]⟩

/-- Settles O47: an instruction completes or waits, and a wait is a next state. -/
theorem everyStepAnswersANextState : Obligations.EveryStepAnswersANextState := by
  unfold Obligations.EveryStepAnswersANextState
  exact fun s => exists_coreStep_eq_next s.land

/-- An instruction that halts the machine is illegal or the HALT service. -/
theorem Effect.halts {i : Instr} {s t : State} (h : Effect i s t) (hs : s.runState = .running)
    (ht : t.runState = .halted) : (i.legal = false ∧ t.haltCause = .illegalInstruction) ∨
      (i = .trap s.cfg.vecHalt ∧ t.haltCause = .normal) := by
  have hne : s.runState ≠ .halted := by simp [hs]
  cases h with
  | illegal hlegal => exact .inl ⟨hlegal, rfl⟩
  | service vector target k t hi hk hservice =>
    obtain ⟨hrun, -⟩ | ⟨rfl, -, hcause⟩ := State.service_run hservice
    · exact absurd (hrun.symm.trans ht) hne
    · exact .inr ⟨hi, hcause⟩
  | dest | store | jump | linkJump => exact absurd ht hne

/-- Settles O48: of the CORE's steps only the stop request and an executed instruction change the run state. -/
theorem haltedIsEnteredInThreeWays : Obligations.HaltedIsEnteredInThreeWays := by
  unfold Obligations.HaltedIsEnteredInThreeWays
  intro s t hrun hstep ht
  have hne : s.land.runState ≠ .halted := by simp [hrun]
  obtain ⟨hhalted, -⟩ | ⟨-, hstop, rfl⟩ | ⟨-, -, -, rfl⟩ | ⟨-, -, u, hfetch, hexec⟩ := coreStep_cases hstep
  · exact absurd hhalted hne
  · exact .inl ⟨hstop, rfl⟩
  · exact absurd ht hne
  · obtain hexec | ⟨-, rfl⟩ := hexec
    · have hu : u.runState = .running := by rw [State.fetch_frame hfetch]; exact hrun
      obtain ⟨hlegal, hcause⟩ | ⟨htrap, hcause⟩ := (effect_of_exec hexec).halts hu ht
      · exact .inr (.inl ⟨u, hfetch, hlegal, hcause⟩)
      · exact .inr (.inr ⟨u, hfetch, htrap, hcause⟩)
    · exact absurd ht hne

/-! ### What every step keeps -/

/-- A property of the state that the halt on a stop request, the fetch and every completed instruction keep is kept by
the CORE's step. -/
theorem coreStep_induct {P : State → Prop} {s t : State} (hstep : coreStep s = .next t) (hs : P s)
    (hstop : s.runState = .running → P (s.halt .externalStop)) (hfetch : ∀ u, s.fetch = some u → P u)
    (heffect : ∀ i u v, P u → Effect i u v → P v) : P t := by
  obtain ⟨-, rfl⟩ | ⟨hrun, -, rfl⟩ | ⟨-, -, -, rfl⟩ | ⟨-, -, u, hu, hexec | ⟨-, rfl⟩⟩ := coreStep_cases hstep
  · exact hs
  · exact hstop hrun
  · exact hs
  · exact heffect _ u t (hfetch u hu) (effect_of_exec hexec)
  · exact hs

theorem Effect.cfg_eq {i : Instr} {s t : State} (h : Effect i s t) : t.cfg = s.cfg := by
  cases h with
  | service _ _ _ _ _ _ hservice =>
    obtain ⟨-, -, -, -, -, hcfg⟩ := State.service_frame hservice
    exact hcfg
  | dest | store | jump | linkJump | illegal => rfl

theorem coreStep_cfg {s t : State} (h : coreStep s = .next t) : t.cfg = s.cfg := by
  refine coreStep_induct (P := fun u => u.cfg = s.cfg) h rfl (fun _ => rfl) (fun u hu => ?_) fun i u v hu he => ?_
  · rw [State.fetch_frame hu]
  · exact he.cfg_eq.trans hu

/-- Settles O54: the CORE changes no parameter, and the moves none but the load origin. -/
theorem parametersAreConstant : Obligations.ParametersAreConstant := by
  unfold Obligations.ParametersAreConstant
  intro s t hstep
  rw [coreStep_cfg hstep]
  refine ⟨s.cfg_land, fun hreset => ?_⟩
  rw [State.land_of_noResetDue hreset]

/-! ### The invariant -/

theorem State.inv_iff {s : State} : s.inv = true ↔ s.mem.wf = true ∧ s.cfg.wf = true ∧ s.causeAgrees = true := by
  simp [State.inv, and_assoc]

/-- A change that keeps memory canonical, the parameters, and the run state with its cause keeps the invariant. -/
theorem State.inv_of_frame {s t : State} (hs : s.inv = true) (hmem : t.mem.wf = true) (hcfg : t.cfg = s.cfg)
    (hrun : SameRun s t) : t.inv = true := by
  obtain ⟨-, hwf, hcause⟩ := State.inv_iff.mp hs
  obtain ⟨hstate, hhalt⟩ := hrun
  refine State.inv_iff.mpr ⟨hmem, hcfg ▸ hwf, ?_⟩
  rwa [State.causeAgrees, hstate, hhalt]

/-- A halt that gives a cause keeps the invariant. -/
theorem State.inv_halt {s : State} {c : HaltCause} (hs : s.inv = true) (hc : c ≠ .none) : (s.halt c).inv = true := by
  obtain ⟨hmem, hwf, -⟩ := State.inv_iff.mp hs
  refine State.inv_iff.mpr ⟨hmem, hwf, ?_⟩
  cases c <;> simp_all [State.causeAgrees]

theorem State.inv_service {s t : State} {vector : BitVec 8} (h : s.service vector = some t) (hs : s.inv = true) :
    t.inv = true := by
  obtain ⟨hmem, hwf, -⟩ := State.inv_iff.mp hs
  have hmem' := (State.service_mem h).2 hmem
  obtain ⟨-, -, -, -, -, hcfg⟩ := State.service_frame h
  obtain hrun | ⟨-, hstate, hcause⟩ := State.service_run h
  · exact State.inv_of_frame hs hmem' hcfg hrun
  · exact State.inv_iff.mpr ⟨hmem', hcfg ▸ hwf, by rw [State.causeAgrees, hstate, hcause]⟩

/-- Every instruction that completes keeps the invariant. -/
theorem Effect.inv {i : Instr} {s t : State} (h : Effect i s t) (hs : s.inv = true) : t.inv = true := by
  obtain ⟨hmem, -, -⟩ := State.inv_iff.mp hs
  cases h with
  | store a v k => exact State.inv_of_frame hs (State.wf_memWrite (s := s.setKbd k) a v hmem) rfl ⟨rfl, rfl⟩
  | service vector target k t hi hk hservice => exact State.inv_service hservice hs
  | illegal => exact State.inv_halt hs (by decide)
  | dest | jump | linkJump => exact hs

/-- Every move of the environment keeps the invariant; a reset sets it up anew. -/
theorem State.inv_move {s : State} (m : EnvMove) (hs : s.inv = true) : (s.move m).inv = true := by
  obtain ⟨-, hwf, -⟩ := State.inv_iff.mp hs
  cases m with
  | key | stop => exact hs
  | reset origin image => exact State.inv_iff.mpr ⟨Memory.wf_load image, hwf, rfl⟩

theorem State.inv_land {s : State} (hs : s.inv = true) : s.land.inv = true :=
  State.land_induct (P := fun u => u.inv = true) (fun _ => hs) fun _ m => State.inv_move m

/-- Settles O57: the moves, the stop request, the fetch and every instruction keep the invariant. -/
theorem stepKeepsTheInvariant : Obligations.StepKeepsTheInvariant := by
  unfold Obligations.StepKeepsTheInvariant
  intro s t hs hstep
  have hland := State.inv_land hs
  refine coreStep_induct (P := fun u => u.inv = true) hstep hland ?_ ?_ fun i u v hu he => he.inv hu
  · exact fun _ => State.inv_halt hland (by decide)
  · intro u hu
    rw [State.fetch_frame hu]
    exact hland

/-! ### Reset -/

theorem State.inv_powerOn {c : Config} (h : c.wf = true) : (State.powerOn c).inv = true :=
  State.inv_iff.mpr ⟨Memory.wf_nil, h, rfl⟩

/-- Settles O58: the empty memory is canonical and RUNNING has no cause; the defaults meet the constraint. -/
theorem resetMeetsTheInvariant : Obligations.ResetMeetsTheInvariant := by
  unfold Obligations.ResetMeetsTheInvariant
  exact ⟨State.inv_powerOn (by decide), fun _ => State.inv_powerOn⟩

/-- Settles O55: the values of `State.powerOn` (R35). -/
theorem resetLeavesTheListedValues : Obligations.ResetLeavesTheListedValues := by
  unfold Obligations.ResetLeavesTheListedValues
  exact ⟨fun c => ⟨State.reg_powerOn c, rfl, rfl, rfl, rfl, Memory.read_nil⟩, rfl, rfl⟩

/-- Loading Words at other addresses leaves a Word as it was. -/
theorem Memory.read_foldl_write_of_ne {image : List (Word × Word)} {a : Word} (m : Memory)
    (h : ∀ cell ∈ image, cell.1 ≠ a) :
    (image.foldl (fun m cell => m.write cell.1.toNat cell.2) m).read a.toNat = m.read a.toNat := by
  induction image generalizing m with
  | nil => rfl
  | cons cell rest ih =>
    obtain ⟨hne, hrest⟩ := List.forall_mem_cons.mp h
    have haddr : a.toNat ≠ cell.1.toNat := fun heq => hne (BitVec.eq_of_toNat_eq heq.symm)
    rw [List.foldl_cons, ih _ hrest, Memory.read_write_of_ne _ _ haddr]

/-- An address the image does not name reads as zero (R232). -/
theorem Memory.read_load_of_ne {image : List (Word × Word)} {a : Word} (h : ∀ cell ∈ image, cell.1 ≠ a) :
    (Memory.load image).read a.toNat = 0x0000 :=
  Memory.read_foldl_write_of_ne [] h

/-- The last Word that the image writes to an address stands. -/
theorem Memory.read_load_last {before after : List (Word × Word)} {a : Word} (v : Word)
    (h : ∀ cell ∈ after, cell.1 ≠ a) : (Memory.load (before ++ (a, v) :: after)).read a.toNat = v := by
  rw [Memory.load, List.foldl_append, List.foldl_cons, Memory.read_foldl_write_of_ne _ h, Memory.read_write_self]

/-- Settles O56: the state of a reset and load, whose memory is the loaded image (R230). -/
theorem resetMoveStartsANewRun : Obligations.ResetMoveStartsANewRun := by
  unfold Obligations.ResetMoveStartsANewRun
  intro s origin image rest henv
  have hland : s.land = ({ s with env := rest } : State).resetLoad origin image := State.land_cons henv
  rw [hland]
  refine ⟨State.reg_powerOn s.cfg, rfl, rfl, rfl, rfl, rfl, rfl, rfl, rfl, rfl, fun a => Memory.read_load_of_ne, ?_⟩
  rintro before after a v rfl hafter
  exact Memory.read_load_last v hafter

end Sys2Proof.Machine
end

section
/-! SUPPORT. The two loops of the services as the specification writes them, without a bound (44_trap_and_illegal.md
R184, R185; log entry 8): a PUTS that ends does so within the reads its bound allows, and READLINE takes no more bytes
than there are. -/

namespace Sys2Proof.Machine

open Sys2Proof.Claims

/-! ### PUTS -/

section
variable {s t u : State} {a w : Word} {fuel : Nat}

theorem State.putsLoop_succ_of_none (hread : s.memRead a = none) : State.putsLoop (fuel + 1) a s = none := by
  simp only [State.putsLoop, hread]

theorem State.putsLoop_succ_of_zero (hread : s.memRead a = some (w, u)) (hw : w = 0x0000) :
    State.putsLoop (fuel + 1) a s = some u := by
  simp only [State.putsLoop, hread, if_pos hw]

theorem State.putsLoop_succ_of_ne (hread : s.memRead a = some (w, u)) (hw : w ≠ 0x0000) :
    State.putsLoop (fuel + 1) a s = State.putsLoop fuel (a + 1) (u.writeByte (lowByte w)) := by
  simp only [State.putsLoop, hread, if_neg hw]

/-- One turn of a loop that ends. -/
theorem State.putsLoop_succ_cases (h : State.putsLoop (fuel + 1) a s = some t) :
    ∃ w u, s.memRead a = some (w, u) ∧
      ((w = 0x0000 ∧ u = t) ∨ (w ≠ 0x0000 ∧ State.putsLoop fuel (a + 1) (u.writeByte (lowByte w)) = some t)) := by
  cases hread : s.memRead a with
  | none =>
    rw [State.putsLoop_succ_of_none hread] at h
    cases h
  | some p =>
    obtain ⟨w, u⟩ := p
    refine ⟨w, u, rfl, ?_⟩
    by_cases hw : w = 0x0000
    · rw [State.putsLoop_succ_of_zero hread hw] at h
      exact .inl ⟨hw, Option.some.inj h⟩
    · rw [State.putsLoop_succ_of_ne hread hw] at h
      exact .inr ⟨hw, h⟩

/-- More fuel does not change how a loop ends. -/
theorem State.putsLoop_mono {fuel' : Nat} (h : State.putsLoop fuel a s = some t) (hle : fuel ≤ fuel') :
    State.putsLoop fuel' a s = some t := by
  induction fuel generalizing a s fuel' with
  | zero => cases h
  | succ fuel ih =>
    obtain ⟨n, rfl⟩ : ∃ n, fuel' = n + 1 := ⟨fuel' - 1, by omega⟩
    obtain ⟨w, u, hread, ⟨hw, rfl⟩ | ⟨hw, hrest⟩⟩ := State.putsLoop_succ_cases h
    · exact State.putsLoop_succ_of_zero hread hw
    · rw [State.putsLoop_succ_of_ne hread hw]
      exact ih hrest (Nat.le_of_succ_le_succ hle)

end

/-- What every read that changes the console's input makes smaller: the bytes that are left and the batches to come. -/
def Keyboard.weight (k : Keyboard) : Nat := k.pending.length + k.arrivals.length

theorem State.memRead_same_or_lighter {s u : State} {a w : Word} (h : s.memRead a = some (w, u)) :
    u = s ∨ u.kbd.weight < s.kbd.weight := by
  have hbefore := State.before_of_memRead h
  obtain ⟨-, -, rfl⟩ | ⟨-, -, b, k, hk, -, rfl⟩ | ⟨-, -, -, rfl⟩ := State.memRead_cases h
  · cases harrivals : s.kbd.arrivals with
    | nil =>
      have hsame : s.kbd.hear = s.kbd := by simp [Keyboard.hear, harrivals]
      rw [hsame]
      exact .inl rfl
    | cons batch later =>
      refine .inr ?_
      have hlater : s.kbd.hear.arrivals = later := by rw [Keyboard.hear_eq, harrivals, List.tail_cons]
      rw [State.kbd_setKbd, Keyboard.weight, Keyboard.weight, Keyboard.pending_hear, hlater, harrivals,
        List.length_cons]
      omega
  · refine .inr ?_
    have hpending : s.kbd.pending.length = k.pending.length + 1 := congrArg List.length (Keyboard.pending_of_await hk)
    obtain ⟨-, n, hdrop⟩ := hbefore
    have hlength : k.arrivals.length = s.kbd.arrivals.length - n := by rw [← List.length_drop, ← hdrop]; rfl
    rw [State.kbd_setKbd, Keyboard.weight, Keyboard.weight]
    omega
  · exact .inl rfl

/-- The Word at `a` is read, does not end a string, and leaves the console as it is. -/
def State.Quiet (s : State) (a : Word) : Prop := ∃ w : Word, w ≠ 0x0000 ∧ s.memRead a = some (w, s)

/-- No read depends on the output. -/
theorem State.Quiet.writeByte {s : State} {a : Word} (b : Byte) (h : s.Quiet a) : (s.writeByte b).Quiet a := by
  obtain ⟨w, hw, hread⟩ := h
  have hgives := State.readGives_of_memRead hread
  exact ⟨w, hw, State.memRead_of_readGives (s := s.writeByte b) hgives⟩

/-- Where every address is quiet the string never ends. -/
theorem State.putsLoop_of_all_quiet {s : State} (h : ∀ x, s.Quiet x) (fuel : Nat) (a : Word) :
    State.putsLoop fuel a s = none := by
  induction fuel generalizing a s with
  | zero => rfl
  | succ fuel ih =>
    obtain ⟨w, hw, hread⟩ := h a
    rw [State.putsLoop_succ_of_ne hread hw]
    exact ih (fun x => (h x).writeByte _) _

/-- If a loop ends, it ends within one turn of the address space for each unit of weight and one more. The `q` addresses
before `a` were quiet: 65,536 quiet ones in a row would be all there are, so before that the string ends or a read makes
the console lighter. -/
theorem State.putsLoop_enough {fuel q : Nat} {a : Word} {s t : State} (h : State.putsLoop fuel a s = some t)
    (hq : q < 65536) (hquiet : ∀ x : Word, (a - 1 - x).toNat < q → s.Quiet x) :
    State.putsLoop (65536 - q + 65536 * s.kbd.weight) a s = some t := by
  induction fuel generalizing a s q with
  | zero => cases h
  | succ fuel ih =>
    have hfuel : 65536 - q + 65536 * s.kbd.weight = 65535 - q + 65536 * s.kbd.weight + 1 := by omega
    rw [hfuel]
    obtain ⟨w, u, hread, ⟨hw, rfl⟩ | ⟨hw, hrest⟩⟩ := State.putsLoop_succ_cases h
    · exact State.putsLoop_succ_of_zero hread hw
    · rw [State.putsLoop_succ_of_ne hread hw]
      obtain rfl | hlighter := State.memRead_same_or_lighter hread
      · have hquiet' : ∀ x : Word, (a + 1 - 1 - x).toNat < q + 1 → u.Quiet x := by
          intro x hx
          by_cases hxa : x = a
          · exact hxa ▸ ⟨w, hw, hread⟩
          · exact hquiet x (by bv_omega)
        have hq' : q + 1 < 65536 := by
          by_contra hall
          have hend := State.putsLoop_of_all_quiet (fun x => hquiet' x (by omega)) (fuel + 1) a
          rw [hend] at h
          cases h
        have hloop := ih hrest hq' fun x hx => (hquiet' x hx).writeByte _
        have hfuel' : 65536 - (q + 1) = 65535 - q := by omega
        rwa [hfuel'] at hloop
      · have hloop := ih hrest (q := 0) (by decide) fun x hx => absurd hx (Nat.not_lt_zero _)
        refine State.putsLoop_mono hloop ?_
        rw [State.kbd_writeByte]
        omega

/-- The bound on reads never cuts a string short. -/
theorem State.putsFrom_eq_some_iff {s t : State} {a : Word} :
    s.putsFrom a = some t ↔ ∃ fuel, State.putsLoop fuel a s = some t := by
  constructor
  · intro h
    exact ⟨_, h⟩
  · rintro ⟨fuel, h⟩
    have hfuel : s.putsFuel = 65536 - 0 + 65536 * s.kbd.weight := by
      rw [State.putsFuel, Keyboard.weight, memWords]
      omega
    rw [State.putsFrom, hfuel]
    exact State.putsLoop_enough h (by decide) fun x hx => absurd hx (Nat.not_lt_zero _)

section
variable {s u : State} {a w : Word}

theorem State.putsFrom_of_none (hread : s.memRead a = none) : s.putsFrom a = none := by
  rw [Option.eq_none_iff_forall_ne_some]
  intro t ht
  obtain ⟨fuel, h⟩ := State.putsFrom_eq_some_iff.mp ht
  have h' := State.putsLoop_mono h (Nat.le_succ fuel)
  rw [State.putsLoop_succ_of_none hread] at h'
  cases h'

theorem State.putsFrom_of_zero (hread : s.memRead a = some (w, u)) (hw : w = 0x0000) : s.putsFrom a = some u :=
  State.putsFrom_eq_some_iff.mpr ⟨1, State.putsLoop_succ_of_zero hread hw⟩

theorem State.putsFrom_of_ne (hread : s.memRead a = some (w, u)) (hw : w ≠ 0x0000) :
    s.putsFrom a = (u.writeByte (lowByte w)).putsFrom (a + 1) := by
  ext t
  rw [State.putsFrom_eq_some_iff, State.putsFrom_eq_some_iff]
  constructor
  · rintro ⟨fuel, h⟩
    have h' := State.putsLoop_mono h (Nat.le_succ fuel)
    rw [State.putsLoop_succ_of_ne hread hw] at h'
    exact ⟨fuel, h'⟩
  · rintro ⟨fuel, h⟩
    exact ⟨fuel + 1, (State.putsLoop_succ_of_ne hread hw).trans h⟩

end

/-- Settles O38: one turn of the loop by what its read gives. -/
theorem putsIsTheUnboundedLoop : Obligations.PutsIsTheUnboundedLoop := by
  unfold Obligations.PutsIsTheUnboundedLoop
  intro s a
  cases hread : s.memRead a with
  | none => exact State.putsFrom_of_none hread
  | some p =>
    obtain ⟨w, u⟩ := p
    by_cases hw : w = 0x0000
    · exact (State.putsFrom_of_zero hread hw).trans (if_pos hw).symm
    · exact (State.putsFrom_of_ne hread hw).trans (if_neg hw).symm

/-! ### READLINE -/

section
variable {s u : State} {a : Word} {b : Byte}

theorem State.pending_of_readByte (h : s.readByte = some (b, u)) : s.kbd.pending = b :: u.kbd.pending :=
  Keyboard.pending_of_await (State.readByte_eq_some_iff.mp h).1

theorem State.readLineTo_of_none (h : s.readByte = none) : s.readLineTo a = none := by
  rw [State.readLineTo, State.readByte_eq_none_iff.mp h]
  rfl

theorem State.readLineTo_of_lineEnd (h : s.readByte = some (b, u)) (hb : b = u.cfg.lineEnd) :
    s.readLineTo a = some (u.memWrite a 0x0000) := by
  rw [State.readLineTo, State.pending_of_readByte h, List.length_cons]
  simp only [State.readLineLoop, h, if_pos hb]

/-- One byte less is left to the rest of the loop, which is just its bound. -/
theorem State.readLineTo_of_ne (h : s.readByte = some (b, u)) (hb : b ≠ u.cfg.lineEnd) :
    s.readLineTo a = (u.memWrite a (zext b)).readLineTo (a + 1) := by
  rw [State.readLineTo, State.pending_of_readByte h, List.length_cons]
  simp only [State.readLineLoop, h, if_neg hb]
  rfl

end

/-- Settles O39: one turn of the loop by the byte it reads. -/
theorem readLineIsTheLoop : Obligations.ReadLineIsTheLoop := by
  unfold Obligations.ReadLineIsTheLoop
  intro s a
  cases hbyte : s.readByte with
  | none => exact State.readLineTo_of_none hbyte
  | some p =>
    obtain ⟨b, u⟩ := p
    by_cases hb : b = u.cfg.lineEnd
    · exact (State.readLineTo_of_lineEnd hbyte hb).trans (if_pos hb).symm
    · exact (State.readLineTo_of_ne hbyte hb).trans (if_neg hb).symm

end Sys2Proof.Machine
end

section
/-! SUPPORT. TRAP (44_trap_and_illegal.md R180 to R187): the entry sequence as one rule on the whole state, the service
table under distinct vectors, what PUTS writes and READLINE stores, and when a service waits; the TRAP statements are
made of these. -/

namespace Sys2Proof.Machine

open Sys2Proof.Claims

/-! ### The entry sequence (R180, R206) -/

/-- The state in which a service begins: the link, the table entry in the PC, and the console as the table read leaves
it. -/
def State.entered (s : State) (target : Word) (k : Keyboard) : State := (s.link.setKbd k).setPc target

section
variable (s : State) (target : Word) (k : Keyboard)

theorem State.reg_entered (r : Reg) : (s.entered target k).reg r = if r = 7 then s.pc else s.reg r := State.reg_link s r

/-- The link leaves R0, the argument of the services, as it was. -/
theorem State.reg_zero_entered : (s.entered target k).reg 0 = s.reg 0 := State.reg_entered s target k 0

theorem trapEntered_entered : TrapEntered target s (s.entered target k) := ⟨State.reg_entered s target k 7, rfl, rfl⟩

theorem sameRegsBut_entered : SameRegsBut [7] s (s.entered target k) :=
  fun _ hr => State.reg_setReg_of_ne s s.pc (List.ne_of_not_mem_cons hr)

end

theorem State.trapEntry_of_readGives {s : State} {vector : BitVec 8} {target : Word} {k : Keyboard}
    (h : ReadGives s (vector.setWidth 16) target k) : s.trapEntry vector = some (s.entered target k) := by
  have hlink : ReadGives s.link (zext vector) target k := h
  exact State.trapEntry_eq_some_iff.mpr ⟨target, _, State.memRead_of_readGives hlink, rfl⟩

/-- Once its table read completes, TRAP is its service. -/
theorem exec_trap_of_readGives {s : State} {vector : BitVec 8} {target : Word} {k : Keyboard}
    (h : ReadGives s (vector.setWidth 16) target k) :
    exec (.trap vector) s = answer ((s.entered target k).service vector) := by
  have harm : exec (.trap vector) s = answer ((s.trapEntry vector).bind fun t => t.service vector) := rfl
  rw [harm, State.trapEntry_of_readGives h, Option.bind_some]

theorem exec_trap_eq_next {s t : State} {vector : BitVec 8} {target : Word} {k : Keyboard}
    (hread : ReadGives s (vector.setWidth 16) target k) (h : (s.entered target k).service vector = some t) :
    exec (.trap vector) s = .next t := by
  rw [exec_trap_of_readGives hread, h]
  rfl

/-! ### The service table (R181) -/

section
variable {s : State}

theorem State.service_of_not_mem {vector : BitVec 8} (h : vector ∉ s.cfg.vectors) : s.service vector = some s := by
  simp only [Config.vectors, List.mem_cons, List.not_mem_nil, or_false, not_or] at h
  obtain ⟨hgetc, hout, hputs, hline, hhalt⟩ := h
  simp only [State.service, if_neg hgetc, if_neg hout, if_neg hputs, if_neg hline, if_neg hhalt]

theorem State.service_vecGetc : s.service s.cfg.vecGetc = s.getc := if_pos rfl

/-- R5: each vector differs from those that the table asks for before it. -/
theorem Config.vectors_distinct {c : Config} (h : c.wf = true) :
    c.vecOut ≠ c.vecGetc ∧ (c.vecPuts ≠ c.vecGetc ∧ c.vecPuts ≠ c.vecOut) ∧
      (c.vecReadLine ≠ c.vecGetc ∧ c.vecReadLine ≠ c.vecOut ∧ c.vecReadLine ≠ c.vecPuts) ∧
      (c.vecHalt ≠ c.vecGetc ∧ c.vecHalt ≠ c.vecOut ∧ c.vecHalt ≠ c.vecPuts ∧ c.vecHalt ≠ c.vecReadLine) := by
  simp only [Config.wf, Config.vectorsDistinct, Bool.and_eq_true, decide_eq_true_eq] at h
  have hnodup := List.nodup_reverse.mpr h.2
  simpa [Config.vectors, and_assoc, and_comm, and_left_comm] using hnodup

section
variable (h : s.cfg.wf = true)
include h

theorem State.service_vecOut : s.service s.cfg.vecOut = some s.putChar := by
  obtain ⟨hgetc, -⟩ := Config.vectors_distinct h
  simp only [State.service, if_neg hgetc, if_true]

theorem State.service_vecPuts : s.service s.cfg.vecPuts = s.puts := by
  obtain ⟨-, ⟨hgetc, hout⟩, -⟩ := Config.vectors_distinct h
  simp only [State.service, if_neg hgetc, if_neg hout, if_true]

theorem State.service_vecReadLine : s.service s.cfg.vecReadLine = s.readLine := by
  obtain ⟨-, -, ⟨hgetc, hout, hputs⟩, -⟩ := Config.vectors_distinct h
  simp only [State.service, if_neg hgetc, if_neg hout, if_neg hputs, if_true]

theorem State.service_vecHalt : s.service s.cfg.vecHalt = some (s.halt .normal) := by
  obtain ⟨-, -, -, hgetc, hout, hputs, hline⟩ := Config.vectors_distinct h
  simp only [State.service, if_neg hgetc, if_neg hout, if_neg hputs, if_neg hline, if_true]

end

end

theorem State.getc_of_byteGives {s : State} {b : Byte} {k : Keyboard} (h : ByteGives s.kbd b k) :
    s.getc = some ((s.setKbd k).setReg 0 (zext b)) := by
  rw [State.getc, State.readByte_of_byteGives h]

/-! ### The statements of the services that do not loop -/

/-- Settles O32: row 0xF000 under 0xF000, and the entry sequence alone (R187). -/
theorem trapWithoutServiceIsALinkedJump : Obligations.TrapWithoutServiceIsALinkedJump := by
  unfold Obligations.TrapWithoutServiceIsALinkedJump
  constructor
  · intro w h
    exact decode_trap (opcode_of_match h rfl)
  · intro vector s target k hvector hread
    have hexec := exec_trap_eq_next hread (State.service_of_not_mem hvector)
    exact ⟨_, hexec, trapEntered_entered s target k, sameRegsBut_entered s target k, fun _ => rfl, rfl, rfl, ⟨rfl, rfl⟩,
      rfl, rfl, rfl, rfl⟩

/-- Settles O33: the entry sequence, and one byte read into R0 (R182). -/
theorem trapGetcReadsOneByte : Obligations.TrapGetcReadsOneByte := by
  unfold Obligations.TrapGetcReadsOneByte
  intro s target b k k' hread hbyte
  have hgetc := State.getc_of_byteGives (s := s.entered target k) hbyte
  have hexec := exec_trap_eq_next hread (State.service_vecGetc.trans hgetc)
  have hr7 : (((s.entered target k).setKbd k').setReg 0 (zext b)).reg 7 = s.pc :=
    (State.reg_setReg_of_ne _ _ (by decide)).trans (State.reg_entered s target k 7)
  have hregs : SameRegsBut [7, 0] s (((s.entered target k).setKbd k').setReg 0 (zext b)) := by
    intro r hr
    simp only [List.mem_cons, List.not_mem_nil, or_false, not_or] at hr
    obtain ⟨hne7, hne0⟩ := hr
    rw [State.reg_setReg_of_ne _ _ hne0, State.reg_setKbd, State.reg_entered, if_neg hne7]
  exact ⟨_, hexec, ⟨hr7, rfl, rfl⟩, State.reg_setReg_self _ 0 (zext b), hregs, fun _ => rfl, rfl, rfl, ⟨rfl, rfl⟩, rfl,
    rfl, rfl, rfl⟩

/-- Settles O34: the entry sequence, and the low byte of R0, which the link leaves as it was (R183). -/
theorem trapOutWritesTheLowByte : Obligations.TrapOutWritesTheLowByte := by
  unfold Obligations.TrapOutWritesTheLowByte
  intro s target k hwf hread
  have hexec := exec_trap_eq_next hread (State.service_vecOut (s := s.entered target k) hwf)
  have hout : (s.entered target k).putChar.out = s.out ++ [lowByte (s.reg 0)] := by
    rw [State.putChar, State.out_writeByte, State.reg_zero_entered]
    rfl
  exact ⟨_, hexec, trapEntered_entered s target k, sameRegsBut_entered s target k, fun _ => rfl, rfl, hout, ⟨rfl, rfl⟩,
    rfl, rfl, rfl, rfl⟩

/-- Settles O35: the entry sequence, and the halt with the normal cause (R186). -/
theorem trapHaltEndsTheRun : Obligations.TrapHaltEndsTheRun := by
  unfold Obligations.TrapHaltEndsTheRun
  intro s target k hwf hread
  have hexec := exec_trap_eq_next hread (State.service_vecHalt (s := s.entered target k) hwf)
  exact ⟨_, hexec, trapEntered_entered s target k, rfl, rfl, sameRegsBut_entered s target k, fun _ => rfl, rfl, rfl,
    rfl, rfl, rfl, rfl⟩

/-! ### PUTS writes a string (R184) -/

theorem add_ofNat_succ (a : Word) (j : Nat) : a + BitVec.ofNat 16 (j + 1) = a + 1 + BitVec.ofNat 16 j := by
  rw [BitVec.ofNat_add, BitVec.add_comm (BitVec.ofNat 16 j), BitVec.add_assoc]
  rfl

/-- The Words of a string from `a` on, in plain storage, with a zero Word after them. -/
def StringAt (s : State) : Word → List Word → Prop
  | a, [] => Plain s a ∧ s.mem.read a.toNat = 0x0000
  | a, c :: chars => (c ≠ 0x0000 ∧ Plain s a ∧ s.mem.read a.toNat = c) ∧ StringAt s (a + 1) chars

theorem stringAt_of_getElem {s : State} {a : Word} {chars : List Word}
    (hchars : ∀ (j : Nat) (hj : j < chars.length), chars[j] ≠ 0x0000 ∧ Plain s (a + BitVec.ofNat 16 j) ∧
      s.mem.read (a + BitVec.ofNat 16 j).toNat = chars[j])
    (hplain : Plain s (a + BitVec.ofNat 16 chars.length))
    (hzero : s.mem.read (a + BitVec.ofNat 16 chars.length).toNat = 0x0000) : StringAt s a chars := by
  induction chars generalizing a with
  | nil =>
    rw [List.length_nil, BitVec.add_zero] at hplain hzero
    exact ⟨hplain, hzero⟩
  | cons c chars ih =>
    have hfirst := hchars 0 (Nat.zero_lt_succ _)
    rw [BitVec.add_zero] at hfirst
    rw [List.length_cons, add_ofNat_succ] at hplain hzero
    refine ⟨hfirst, ih (fun j hj => ?_) hplain hzero⟩
    have hnext := hchars (j + 1) (Nat.succ_lt_succ hj)
    rwa [add_ofNat_succ] at hnext

/-- PUTS on a string in plain storage: its low bytes in order; only the output changes along the way. -/
theorem State.putsFrom_of_stringAt {s : State} {chars : List Word} (out : List Byte) {a : Word}
    (h : StringAt s a chars) :
    ({ s with out := out } : State).putsFrom a = some { s with out := out ++ chars.map lowByte } := by
  induction chars generalizing a out with
  | nil =>
    obtain ⟨⟨hks, hkd⟩, hzero⟩ := h
    rw [State.putsFrom_of_zero (State.memRead_plain (s := { s with out := out }) hks hkd) hzero, List.map_nil,
      List.append_nil]
  | cons c chars ih =>
    obtain ⟨⟨hc, ⟨hks, hkd⟩, hread⟩, hrest⟩ := h
    have hne : s.mem.read a.toNat ≠ 0x0000 := by rwa [hread]
    rw [State.putsFrom_of_ne (State.memRead_plain (s := { s with out := out }) hks hkd) hne, hread]
    have hloop := ih (out ++ [lowByte c]) hrest
    rw [List.append_assoc] at hloop
    exact hloop

/-- Settles O36: the entry sequence, and the loop of PUTS on the string (R184). -/
theorem trapPutsWritesTheString : Obligations.TrapPutsWritesTheString := by
  unfold Obligations.TrapPutsWritesTheString
  intro s target k chars hwf hread hchars hplain hzero
  have hstring : StringAt (s.entered target k) (s.reg 0) chars := stringAt_of_getElem hchars hplain hzero
  have hputs : (s.entered target k).puts = some { s.entered target k with out := s.out ++ chars.map lowByte } := by
    rw [State.puts, State.reg_zero_entered]
    exact State.putsFrom_of_stringAt s.out hstring
  have hexec := exec_trap_eq_next hread ((State.service_vecPuts (s := s.entered target k) hwf).trans hputs)
  exact ⟨_, hexec, trapEntered_entered s target k, sameRegsBut_entered s target k, fun _ => rfl, rfl, rfl, ⟨rfl, rfl⟩,
    rfl, rfl, rfl, rfl⟩

/-! ### READLINE fills a buffer (R185) -/

/-- The memory after a line is stored from `a` on, one byte a Word, with a zero Word after it. -/
def Memory.storeLine (m : Memory) (a : Word) : List Byte → Memory
  | [] => m.write a.toNat 0x0000
  | b :: bytes => Memory.storeLine (m.write a.toNat (zext b)) (a + 1) bytes

/-- Outside the buffer nothing changes. -/
theorem Memory.read_storeLine_of_ne {m : Memory} {a : Word} {bytes : List Byte} {x : Nat}
    (h : ∀ j : Nat, j ≤ bytes.length → x ≠ (a + BitVec.ofNat 16 j).toNat) :
    (m.storeLine a bytes).read x = m.read x := by
  have hfirst : x ≠ a.toNat := by
    have h0 := h 0 (Nat.zero_le _)
    rwa [BitVec.add_zero] at h0
  induction bytes generalizing m a with
  | nil => exact Memory.read_write_of_ne m _ hfirst
  | cons b bytes ih =>
    have hrest : ∀ j : Nat, j ≤ bytes.length → x ≠ (a + 1 + BitVec.ofNat 16 j).toNat := by
      intro j hj
      rw [← add_ofNat_succ]
      exact h (j + 1) (Nat.succ_le_succ hj)
    have hsecond : x ≠ (a + 1).toNat := by
      have h0 := hrest 0 (Nat.zero_le _)
      rwa [BitVec.add_zero] at h0
    rw [Memory.storeLine, ih hrest hsecond, Memory.read_write_of_ne m _ hfirst]

theorem Memory.read_storeLine_end (m : Memory) (a : Word) (bytes : List Byte) :
    (m.storeLine a bytes).read (a + BitVec.ofNat 16 bytes.length).toNat = 0x0000 := by
  induction bytes generalizing m a with
  | nil =>
    rw [List.length_nil, BitVec.add_zero]
    exact Memory.read_write_self m a.toNat 0x0000
  | cons b bytes ih =>
    rw [List.length_cons, add_ofNat_succ]
    exact ih _ _

/-- Each byte of the line stands in its Word: a line shorter than the address space does not come back to it. -/
theorem Memory.read_storeLine_getElem {m : Memory} {a : Word} {bytes : List Byte} (hlen : bytes.length < 65536)
    (j : Nat) (hj : j < bytes.length) : (m.storeLine a bytes).read (a + BitVec.ofNat 16 j).toNat = zext bytes[j] := by
  induction bytes generalizing m a j with
  | nil => exact absurd hj (Nat.not_lt_zero j)
  | cons b bytes ih =>
    rw [List.length_cons] at hlen
    cases j with
    | zero =>
      have hlater : ∀ i : Nat, i ≤ bytes.length → a.toNat ≠ (a + 1 + BitVec.ofNat 16 i).toNat := by
        intro i hi
        bv_omega
      rw [BitVec.add_zero, Memory.storeLine, Memory.read_storeLine_of_ne hlater,
        Memory.read_write_self, List.getElem_cons_zero]
    | succ j =>
      rw [add_ofNat_succ, List.getElem_cons_succ]
      exact ih (by omega) j (Nat.lt_of_succ_lt_succ hj)

/-- READLINE on a whole line. -/
theorem State.readLineTo_of_bytesGive {s : State} {a : Word} {bytes : List Byte} {k : Keyboard}
    (h : BytesGive s.kbd (bytes ++ [s.cfg.lineEnd]) k) (hbytes : s.cfg.lineEnd ∉ bytes) :
    s.readLineTo a = some { s with mem := s.mem.storeLine a bytes, kbd := k } := by
  induction bytes generalizing s a with
  | nil =>
    obtain ⟨m, hbyte, rfl⟩ := h
    exact State.readLineTo_of_lineEnd (State.readByte_of_byteGives hbyte) rfl
  | cons b bytes ih =>
    obtain ⟨m, hbyte, hrest⟩ := h
    obtain ⟨hne, hbytes'⟩ := not_or.mp (List.mem_cons.not.mp hbytes)
    rw [State.readLineTo_of_ne (State.readByte_of_byteGives hbyte) (Ne.symm hne)]
    exact ih (s := (s.setKbd m).memWrite a (zext b)) hrest hbytes'

/-- Settles O37: the entry sequence, and the loop of READLINE on the line (R185). -/
theorem trapReadLineFillsTheBuffer : Obligations.TrapReadLineFillsTheBuffer := by
  unfold Obligations.TrapReadLineFillsTheBuffer
  intro s target bytes k k' hwf hread hgive hbytes hlen
  have hline : (s.entered target k).readLine =
      some { s.entered target k with mem := s.mem.storeLine (s.reg 0) bytes, kbd := k' } := by
    rw [State.readLine, State.reg_zero_entered]
    exact State.readLineTo_of_bytesGive (s := s.entered target k) hgive hbytes
  have hexec := exec_trap_eq_next hread ((State.service_vecReadLine (s := s.entered target k) hwf).trans hline)
  exact ⟨_, hexec, trapEntered_entered s target k, sameRegsBut_entered s target k,
    fun j hj => Memory.read_storeLine_getElem hlen j hj, Memory.read_storeLine_end s.mem (s.reg 0) bytes,
    fun _ => Memory.read_storeLine_of_ne, rfl, rfl, ⟨rfl, rfl⟩, rfl, rfl, rfl, rfl⟩

/-! ### When a service waits (R126) -/

theorem State.getc_eq_none_iff {s : State} : s.getc = none ↔ NoByte s.kbd := by
  rw [noByte_iff_pending, ← State.readByte_eq_none_iff, State.getc]
  cases s.readByte <;> simp

/-- READLINE waits exactly if no line end is among the bytes that are there or to arrive. -/
theorem State.readLineTo_eq_none_iff {s : State} {a : Word} :
    s.readLineTo a = none ↔ s.cfg.lineEnd ∉ s.kbd.pending := by
  induction hpending : s.kbd.pending generalizing s a with
  | nil =>
    rw [State.readLineTo_of_none (State.readByte_eq_none_iff.mpr hpending)]
    simp
  | cons b rest ih =>
    cases hbyte : s.readByte with
    | none =>
      rw [State.readByte_eq_none_iff.mp hbyte] at hpending
      cases hpending
    | some p =>
      obtain ⟨c, u⟩ := p
      rw [State.pending_of_readByte hbyte] at hpending
      obtain ⟨rfl, hrest⟩ := List.cons.inj hpending
      have hcfg : u.cfg = s.cfg := by rw [(State.readByte_eq_some_iff.mp hbyte).2, State.cfg_setKbd]
      rw [← hcfg, List.mem_cons, not_or]
      by_cases hc : c = u.cfg.lineEnd
      · rw [State.readLineTo_of_lineEnd hbyte hc]
        simp [hc]
      · rw [State.readLineTo_of_ne hbyte hc, ih (s := u.memWrite a (zext c)) hrest, State.cfg_memWrite]
        exact (and_iff_right (Ne.symm hc)).symm

theorem notMem_pending_iff {k : Keyboard} {b : Byte} :
    b ∉ k.pending ↔ b ∉ k.queue ∧ ∀ batch ∈ k.arrivals, b ∉ batch := by
  simp [Keyboard.pending, not_or]

/-- Settles O40: a table entry in plain storage leaves the console to the service. -/
theorem trapWaitsExactlyForMissingInput : Obligations.TrapWaitsExactlyForMissingInput := by
  unfold Obligations.TrapWaitsExactlyForMissingInput
  intro s vector hwf hplain
  obtain ⟨target, hread⟩ : ∃ target, ReadGives s (vector.setWidth 16) target s.kbd :=
    ⟨_, .inr (.inr ⟨hplain, rfl, rfl⟩)⟩
  have hwf' : (s.entered target s.kbd).cfg.wf = true := hwf
  refine ⟨?_, ?_, ?_⟩
  · rintro rfl
    have hservice : (s.entered target s.kbd).service s.cfg.vecGetc = (s.entered target s.kbd).getc :=
      State.service_vecGetc
    rw [exec_trap_of_readGives hread, answer_eq_hold_iff, hservice]
    exact State.getc_eq_none_iff
  · rintro rfl
    have hservice : (s.entered target s.kbd).service s.cfg.vecReadLine = (s.entered target s.kbd).readLine :=
      State.service_vecReadLine hwf'
    rw [exec_trap_of_readGives hread, answer_eq_hold_iff, hservice, ← notMem_pending_iff]
    exact State.readLineTo_eq_none_iff
  · rintro (rfl | rfl | hvector)
    · exact ⟨_, exec_trap_eq_next hread (State.service_vecOut hwf')⟩
    · exact ⟨_, exec_trap_eq_next hread (State.service_vecHalt hwf')⟩
    · exact ⟨_, exec_trap_eq_next hread (State.service_of_not_mem hvector)⟩

end Sys2Proof.Machine
end

section
/-! SUPPORT. No program can observe IR, the output so far, or the cells under the device addresses (decision D7,
20_memory.md R61): every operation of the machine takes states that are `Alike` to states that are. -/

namespace Sys2Proof.Claims

open Sys2Proof.Machine

/-! ### The updates of one field: each is the same function of both states -/

section
variable {s s' : State} (h : Alike s s')
include h

theorem Alike.setReg (r : Reg) (v : Word) : Alike (s.setReg r v) (s'.setReg r v) :=
  ⟨congrArg (State.setReg · r v) h.1, h.2⟩

theorem Alike.setPc (v : Word) : Alike (s.setPc v) (s'.setPc v) := ⟨congrArg (State.setPc · v) h.1, h.2⟩

theorem Alike.setCond (c : Cond) : Alike (s.setCond c) (s'.setCond c) := ⟨congrArg (State.setCond · c) h.1, h.2⟩

theorem Alike.setIr (w : Word) : Alike (s.setIr w) (s'.setIr w) := ⟨congrArg (State.setIr · w) h.1, h.2⟩

theorem Alike.setKbd (k : Keyboard) : Alike (s.setKbd k) (s'.setKbd k) := ⟨congrArg (State.setKbd · k) h.1, h.2⟩

theorem Alike.writeByte (b : Byte) : Alike (s.writeByte b) (s'.writeByte b) :=
  ⟨congrArg (State.writeByte · b) h.1, h.2⟩

theorem Alike.halt (c : HaltCause) : Alike (s.halt c) (s'.halt c) := ⟨congrArg (State.halt · c) h.1, h.2⟩

theorem Alike.memWrite (a v : Word) : Alike (s.memWrite a v) (s'.memWrite a v) := by
  refine ⟨congrArg (State.memWrite · a v) h.1, fun x hx => ?_⟩
  rw [State.mem_memWrite, State.mem_memWrite, Memory.read_write, Memory.read_write, h.2 x hx]

theorem Alike.writeDest (r : Reg) (v : Word) : Alike (s.writeDest r v) (s'.writeDest r v) :=
  (h.setReg r v).setCond (condOf v)

/-! ### The fields that agree -/

theorem Alike.regs_eq : s'.regs = s.regs := (congrArg State.regs h.1 :)
theorem Alike.pc_eq : s'.pc = s.pc := (congrArg State.pc h.1 :)
theorem Alike.cond_eq : s'.cond = s.cond := (congrArg State.cond h.1 :)
theorem Alike.runState_eq : s'.runState = s.runState := (congrArg State.runState h.1 :)
theorem Alike.kbd_eq : s'.kbd = s.kbd := (congrArg State.kbd h.1 :)
theorem Alike.stopReq_eq : s'.stopReq = s.stopReq := (congrArg State.stopReq h.1 :)
theorem Alike.env_eq : s'.env = s.env := (congrArg State.env h.1 :)
theorem Alike.cfg_eq : s'.cfg = s.cfg := (congrArg State.cfg h.1 :)
theorem Alike.reg_eq (r : Reg) : s'.reg r = s.reg r := State.reg_eq_of_regs h.regs_eq r

theorem Alike.link : Alike s.link s'.link := by
  rw [State.link, State.link, h.pc_eq]
  exact h.setReg 7 s.pc

/-! ### Reads -/

/-- A byte is read in both states alike, or in neither. -/
theorem Alike.readByte : (s.readByte = none ∧ s'.readByte = none) ∨
    ∃ b t t', s.readByte = some (b, t) ∧ s'.readByte = some (b, t') ∧ Alike t t' := by
  cases hk : Keyboard.await s.kbd.queue s.kbd.arrivals with
  | none => exact .inl ⟨by simp only [State.readByte, hk], by simp only [State.readByte, h.kbd_eq, hk]⟩
  | some p =>
    obtain ⟨b, k⟩ := p
    exact .inr ⟨b, s.setKbd k, s'.setKbd k, by simp only [State.readByte, hk],
      by simp only [State.readByte, h.kbd_eq, hk], h.setKbd k⟩

/-- A Word is read in both states alike, or in neither: at a device address the cell takes no part. -/
theorem Alike.memRead (a : Word) : (s.memRead a = none ∧ s'.memRead a = none) ∨
    ∃ v t t', s.memRead a = some (v, t) ∧ s'.memRead a = some (v, t') ∧ Alike t t' := by
  by_cases hks : a = s.cfg.kbsrAddr
  · have hread' := State.memRead_kbsr (s := s') (hks.trans (congrArg Config.kbsrAddr h.cfg_eq.symm))
    rw [h.kbd_eq, h.cfg_eq] at hread'
    exact .inr ⟨_, _, _, State.memRead_kbsr hks, hread', h.setKbd _⟩
  · by_cases hkd : a = s.cfg.kbdrAddr
    · have hbyte := h.readByte
      simp only [State.memRead, State.kbdrRead, h.cfg_eq, if_neg hks, if_pos hkd]
      obtain ⟨hnone, hnone'⟩ | ⟨b, t, t', hsome, hsome', ht⟩ := hbyte
      · exact .inl ⟨by rw [hnone], by rw [hnone']⟩
      · exact .inr ⟨zext b, t, t', by rw [hsome], by rw [hsome'], ht⟩
    · have hread' := State.memRead_plain (s := s') (h.cfg_eq ▸ hks) (h.cfg_eq ▸ hkd)
      rw [h.2 a ⟨hks, hkd⟩] at hread'
      exact .inr ⟨_, s, s', State.memRead_plain hks hkd, hread', h⟩

/-- A fetch that completes in both states leaves one Word in IR. -/
theorem Alike.fetch : (s.fetch = none ∧ s'.fetch = none) ∨
    ∃ u u', s.fetch = some u ∧ s'.fetch = some u' ∧ u'.ir = u.ir ∧ Alike u u' := by
  obtain ⟨hnone, hnone'⟩ | ⟨w, t, t', hsome, hsome', ht⟩ := h.memRead s.pc
  · exact .inl ⟨by simp only [State.fetch, hnone], by simp only [State.fetch, h.pc_eq, hnone']⟩
  · have hfetch' : s'.fetch = some ((t'.setIr w).setPc (t.pc + 1)) := by
      simp only [State.fetch, h.pc_eq, hsome', ht.pc_eq]
    have hfetch : s.fetch = some ((t.setIr w).setPc (t.pc + 1)) := by simp only [State.fetch, hsome]
    exact .inr ⟨_, _, hfetch, hfetch', rfl, (ht.setIr w).setPc (t.pc + 1)⟩

theorem Alike.loadInto (dr : Reg) (a : Word) : Option.Rel Alike (s.loadInto dr a) (s'.loadInto dr a) := by
  obtain ⟨hnone, hnone'⟩ | ⟨v, t, t', hsome, hsome', ht⟩ := h.memRead a
  · simp only [State.loadInto, hnone, hnone']
    exact .none
  · simp only [State.loadInto, hsome, hsome']
    exact .some (ht.writeDest dr v)

theorem Alike.trapEntry (vector : BitVec 8) : Option.Rel Alike (s.trapEntry vector) (s'.trapEntry vector) := by
  obtain ⟨hnone, hnone'⟩ | ⟨target, t, t', hsome, hsome', ht⟩ := h.link.memRead (zext vector)
  · simp only [State.trapEntry, hnone, hnone']
    exact .none
  · simp only [State.trapEntry, hsome, hsome']
    exact .some (ht.setPc target)

/-! ### The services -/

theorem Alike.getc : Option.Rel Alike s.getc s'.getc := by
  obtain ⟨hnone, hnone'⟩ | ⟨b, t, t', hsome, hsome', ht⟩ := h.readByte
  · simp only [State.getc, hnone, hnone']
    exact .none
  · simp only [State.getc, hsome, hsome']
    exact .some (ht.setReg 0 (zext b))

theorem Alike.putsLoop (fuel : Nat) (a : Word) :
    Option.Rel Alike (State.putsLoop fuel a s) (State.putsLoop fuel a s') := by
  induction fuel generalizing a s s' with
  | zero => exact .none
  | succ fuel ih =>
    obtain ⟨hnone, hnone'⟩ | ⟨w, t, t', hsome, hsome', ht⟩ := h.memRead a
    · rw [State.putsLoop_succ_of_none hnone, State.putsLoop_succ_of_none hnone']
      exact .none
    · by_cases hw : w = 0x0000
      · rw [State.putsLoop_succ_of_zero hsome hw, State.putsLoop_succ_of_zero hsome' hw]
        exact .some ht
      · rw [State.putsLoop_succ_of_ne hsome hw, State.putsLoop_succ_of_ne hsome' hw]
        exact ih (ht.writeByte (lowByte w)) (a + 1)

theorem Alike.readLineLoop (fuel : Nat) (a : Word) :
    Option.Rel Alike (State.readLineLoop fuel a s) (State.readLineLoop fuel a s') := by
  induction fuel generalizing a s s' with
  | zero => exact .none
  | succ fuel ih =>
    obtain ⟨hnone, hnone'⟩ | ⟨b, t, t', hsome, hsome', ht⟩ := h.readByte
    · simp only [State.readLineLoop, hnone, hnone']
      exact .none
    · simp only [State.readLineLoop, hsome, hsome', ht.cfg_eq]
      split_ifs
      · exact .some (ht.memWrite a 0x0000)
      · exact ih (ht.memWrite a (zext b)) (a + 1)

theorem Alike.puts : Option.Rel Alike s.puts s'.puts := by
  have hfuel : s'.putsFuel = s.putsFuel := by rw [State.putsFuel, State.putsFuel, h.kbd_eq]
  rw [State.puts, State.puts, State.putsFrom, State.putsFrom, hfuel, h.reg_eq]
  exact h.putsLoop _ _

theorem Alike.readLine : Option.Rel Alike s.readLine s'.readLine := by
  rw [State.readLine, State.readLine, State.readLineTo, State.readLineTo, h.kbd_eq, h.reg_eq]
  exact h.readLineLoop _ _

theorem Alike.putChar : Alike s.putChar s'.putChar := by
  rw [State.putChar, State.putChar, h.reg_eq]
  exact h.writeByte _

theorem Alike.service (vector : BitVec 8) : Option.Rel Alike (s.service vector) (s'.service vector) := by
  simp only [State.service, h.cfg_eq]
  split_ifs
  · exact h.getc
  · exact .some h.putChar
  · exact h.puts
  · exact h.readLine
  · exact .some (h.halt .normal)
  · exact .some h

end

/-! ### Instructions -/

/-- Two answers that differ only in what no program can observe. -/
inductive AlikeAnswer : Host.Outcome State Fault Refusal → Host.Outcome State Fault Refusal → Prop
  | next {t t' : State} (h : Alike t t') : AlikeAnswer (.next t) (.next t')
  | hold : AlikeAnswer (.fault .consoleHold) (.fault .consoleHold)

theorem AlikeAnswer.exists_next {t : State} {o : Host.Outcome State Fault Refusal} (h : AlikeAnswer (.next t) o) :
    ∃ t', o = .next t' ∧ Alike t t' := by
  cases h with
  | next ht => exact ⟨_, rfl, ht⟩

/-- Two waits leave the states that were alike before the step. -/
theorem AlikeAnswer.retire {o o' : Host.Outcome State Fault Refusal} (ho : AlikeAnswer o o') {s s' : State}
    (h : Alike s s') : AlikeAnswer (Machine.retire s o) (Machine.retire s' o') := by
  cases ho with
  | next ht => exact .next ht
  | hold => exact .next h

theorem alikeAnswer_answer {o o' : Option State} (h : Option.Rel Alike o o') : AlikeAnswer (answer o) (answer o') := by
  cases h with
  | none => exact .hold
  | some ht => exact .next ht

theorem rel_bind {o o' : Option State} {f : State → Option State} (h : Option.Rel Alike o o')
    (hf : ∀ t t', Alike t t' → Option.Rel Alike (f t) (f t')) : Option.Rel Alike (o.bind f) (o'.bind f) := by
  cases h with
  | none => exact .none
  | some ht => exact hf _ _ ht

section
variable {s s' : State} (h : Alike s s')
include h

/-- The case split over the nineteen forms: operands and reads agree, and each end keeps the states alike. -/
theorem Alike.exec_answer (i : Instr) : AlikeAnswer (exec i s) (exec i s') := by
  have hreg := h.reg_eq
  have hpc := h.pc_eq
  cases i with
  | addReg dr sr1 sr2 =>
    rw [exec_addReg, exec_addReg, hreg, hreg]
    exact .next (h.writeDest dr _)
  | addImm dr sr1 imm5 =>
    rw [exec_addImm, exec_addImm, hreg]
    exact .next (h.writeDest dr _)
  | andReg dr sr1 sr2 =>
    rw [exec_andReg, exec_andReg, hreg, hreg]
    exact .next (h.writeDest dr _)
  | andImm dr sr1 imm5 =>
    rw [exec_andImm, exec_andImm, hreg]
    exact .next (h.writeDest dr _)
  | not dr sr1 =>
    rw [exec_not, exec_not, hreg]
    exact .next (h.writeDest dr _)
  | br n z p offset9 =>
    rw [exec_br, exec_br, h.cond_eq, hpc]
    exact .next (h.setPc _)
  | jmp baseR =>
    rw [exec_jmp, exec_jmp, hreg]
    exact .next (h.setPc _)
  | jsr offset11 =>
    rw [exec_jsr, exec_jsr, hpc]
    exact .next (h.link.setPc _)
  | jsrr baseR =>
    rw [exec_jsrr, exec_jsrr, hpc, hreg]
    exact .next (h.link.setPc _)
  | lea dr offset9 =>
    rw [exec_lea, exec_lea, hpc]
    exact .next (h.writeDest dr _)
  | st sr offset9 =>
    rw [exec_st, exec_st, hpc, hreg]
    exact .next (h.memWrite _ _)
  | str sr baseR offset6 =>
    rw [exec_str, exec_str, hreg, hreg]
    exact .next (h.memWrite _ _)
  | ld dr offset9 =>
    show AlikeAnswer (answer (s.loadInto dr (s.pc + sext offset9))) (answer (s'.loadInto dr (s'.pc + sext offset9)))
    rw [hpc]
    exact alikeAnswer_answer (h.loadInto dr _)
  | ldr dr baseR offset6 =>
    show AlikeAnswer (answer (s.loadInto dr (s.reg baseR + sext offset6)))
      (answer (s'.loadInto dr (s'.reg baseR + sext offset6)))
    rw [hreg]
    exact alikeAnswer_answer (h.loadInto dr _)
  | ldi dr offset9 =>
    show AlikeAnswer (answer ((s.memRead (s.pc + sext offset9)).bind fun p => p.2.loadInto dr p.1))
      (answer ((s'.memRead (s'.pc + sext offset9)).bind fun p => p.2.loadInto dr p.1))
    rw [hpc]
    obtain ⟨hnone, hnone'⟩ | ⟨ea, t, t', hsome, hsome', ht⟩ := h.memRead (s.pc + sext offset9)
    · rw [hnone, hnone']
      exact .hold
    · rw [hsome, hsome']
      exact alikeAnswer_answer (ht.loadInto dr ea)
  | sti sr offset9 =>
    show AlikeAnswer (answer ((s.memRead (s.pc + sext offset9)).map fun p => p.2.memWrite p.1 (s.reg sr)))
      (answer ((s'.memRead (s'.pc + sext offset9)).map fun p => p.2.memWrite p.1 (s'.reg sr)))
    rw [hpc, hreg]
    obtain ⟨hnone, hnone'⟩ | ⟨ea, t, t', hsome, hsome', ht⟩ := h.memRead (s.pc + sext offset9)
    · rw [hnone, hnone']
      exact .hold
    · rw [hsome, hsome']
      exact .next (ht.memWrite ea (s.reg sr))
  | trap vector => exact alikeAnswer_answer (rel_bind (h.trapEntry vector) fun _ _ ht => ht.service vector)
  | rti | res => exact .next (h.halt .illegalInstruction)

/-! ### The step -/

theorem Alike.coreStep_answer : AlikeAnswer (coreStep s) (coreStep s') := by
  have hrun := h.runState_eq
  have hstop := h.stopReq_eq
  cases hs : s.runState with
  | halted =>
    rw [coreStep_of_halted hs, coreStep_of_halted (hrun.trans hs)]
    exact .next h
  | running =>
    cases hr : s.stopReq with
    | true =>
      rw [coreStep_of_stop hs hr, coreStep_of_stop (hrun.trans hs) (hstop.trans hr)]
      exact .next (h.halt .externalStop)
    | false =>
      obtain ⟨hnone, hnone'⟩ | ⟨u, u', hsome, hsome', hir, hu⟩ := h.fetch
      · rw [coreStep_of_fetch_none hs hr hnone, coreStep_of_fetch_none (hrun.trans hs) (hstop.trans hr) hnone']
        exact .next h
      · rw [coreStep_of_fetch hs hr hsome, coreStep_of_fetch (hrun.trans hs) (hstop.trans hr) hsome', hir]
        exact (hu.exec_answer (decode u.ir)).retire h

/-- A reset forgets what differs. -/
theorem Alike.move (m : EnvMove) : Alike (s.move m) (s'.move m) := by
  cases m with
  | key b =>
    rw [State.move, State.move, h.kbd_eq]
    exact h.setKbd _
  | stop => exact ⟨congrArg (State.move · .stop) h.1, h.2⟩
  | reset origin image =>
    have hsame : s'.move (.reset origin image) = s.move (.reset origin image) := by
      rw [State.move, State.move, State.resetLoad, State.resetLoad, h.cfg_eq, h.kbd_eq, h.env_eq]
    rw [hsame]
    exact ⟨rfl, fun _ _ => rfl⟩

end

theorem Alike.foldl_move {s s' : State} (h : Alike s s') (moves : List EnvMove) :
    Alike (moves.foldl State.move s) (moves.foldl State.move s') := by
  induction moves generalizing s s' with
  | nil => exact h
  | cons m rest ih => exact ih (h.move m)

theorem Alike.land {s s' : State} (h : Alike s s') : Alike s.land s'.land := by
  cases henv : s.env with
  | nil =>
    rw [State.land_nil henv, State.land_nil (h.env_eq.trans henv)]
    exact h
  | cons moves rest =>
    rw [State.land_cons henv, State.land_cons (h.env_eq.trans henv)]
    have hrest : Alike { s with env := rest } { s' with env := rest } :=
      ⟨congrArg (fun u : State => { u with env := rest }) h.1, h.2⟩
    exact hrest.foldl_move moves

/-- Settles O59: the moves land alike, and the CORE steps alike. -/
theorem hiddenStateIsNotObserved : Obligations.HiddenStateIsNotObserved := by
  unfold Obligations.HiddenStateIsNotObserved
  intro s s' t h hstep
  have hanswer : AlikeAnswer (step s) (step s') := h.land.coreStep_answer
  rw [hstep] at hanswer
  exact hanswer.exists_next

end Sys2Proof.Claims
end
